-- ==== Sys2Proof/Word.lean ====
section
/-! DEFINITION. The word types of CSCPK: the buffer's byte, the 16-bit RGB565 word and the 32-bit register
(00_scope.md rule R9). -/

namespace Sys2Proof

/-- One byte of buffer memory (`u8` of rule R9; an `s8` is the same eight bits read with `BitVec.toInt`, rule R63). -/
abbrev Byte := BitVec 8

/-- `u16` of rule R9: an RGB565 word (rule R142), and one half of DIM (rule R24). -/
abbrev Half := BitVec 16

/-- `u32` of rule R9: a register of the register space (rule R22), and the command word (rule R81). -/
abbrev Word := BitVec 32

end Sys2Proof
end

