-- ==== Sys2Proof/Config.lean ====
section
/-! DEFINITION. What an implementation fixes (00_scope.md rule R8) and the free values: constants with no body, which
no proof can evaluate. -/

namespace Sys2Proof

/-- Parameter ROUND_TIES (rules R8, R103): how the forward transform rounds an exact .5. -/
inductive RoundTies where
  | away
  | even
deriving DecidableEq, Repr

/-- Parameter CSC_ARITH (rules R8, R108): the reference value exactly, or any value within 1 of it. -/
inductive CscArith where
  | exact
  | tolerant
deriving DecidableEq, Repr

/-- The parameters of rule R8 that some rule reads. A machine carries them unchanged from reset on, so a statement about
every state is a statement about every choice of them. -/
structure Params where
  /-- MEM_BYTES: the size of the buffer memory in bytes. -/
  memBytes  : Nat
  roundTies : RoundTies
  cscArith  : CscArith
deriving DecidableEq, Repr

/-- The range rule R8 gives MEM_BYTES. -/
abbrev Params.legal (p : Params) : Prop := 1 ≤ p.memBytes ∧ p.memBytes ≤ 2 ^ 32

/-- The defaults of rule R8. -/
def Params.default : Params := ⟨65536, .away, .exact⟩

namespace Config

/-- NSURF of rule R8, fixed: the surface descriptors are numbered 0 to 3. -/
def nSurf : Nat := 4

/-- K_MAX of rule R8, fixed: the largest palette size a PACK or UNPACK accepts. -/
def kMax : Nat := 256

/-- REF_WIDTH of rule R8: the reference display, used only by examples. -/
def refWidth : Nat := 160

/-- REF_HEIGHT of rule R8. -/
def refHeight : Nat := 80

/-- REG_BASE of rule R8: OPEN, and no rule reads it (rule R69). -/
opaque regBase : Nat

/-- MEM_BASE of rule R8: OPEN, and no rule reads it (rule R69). -/
opaque memBase : Nat

/-- FREE VALUE (rule R77): the byte drawn at power-on for each buffer address, kept until somebody writes it.
Log entry 1. -/
opaque powerOnByte : Nat → Byte

/-- FREE VALUE (rules R185, R212, R221): the byte that draw number `n` of a run gives. Log entry 2. -/
opaque freeByte : Nat → Byte

/-- FREE VALUE (rule R108): the number that draw number `n` of a run gives a TOLERANT channel. Log entry 3. -/
opaque freeChoice : Nat → Nat

end Config

end Sys2Proof
end

