-- ==== Sys2Proof/Syntax.lean ====
section
/-! DEFINITION. The commands of 30_encoding.md as syntax: the four commands (rule R80), the raw fields of the one command
format (rule R81), and the assembler's forms (rule R86). -/

namespace Sys2Proof

/-- A surface number 0..3: the two bits of S or D, zero-extended (rule R83). -/
abbrev SurfNum := Fin 4

/-- The commands, one constructor per row of the opcode table (rule R80). -/
inductive Instr where
  /-- CSC_FWD (rule R120): source surface S, destination surface D, range mode R. -/
  | cscFwd (src dst : SurfNum) (range : Bool)
  /-- CSC_INV (rule R125): source surface S, destination surface D, range mode R. -/
  | cscInv (src dst : SurfNum) (range : Bool)
  /-- PACK (rule R155): palette surface S. -/
  | pack (pal : SurfNum)
  /-- UNPACK (rule R160). -/
  | unpack
deriving DecidableEq, Repr

/-- The fields of the 32-bit command word, as bits (rule R81). -/
structure CmdFields where
  op  : BitVec 4
  s   : BitVec 2
  d   : BitVec 2
  r   : Bool
  rsv : BitVec 23
deriving DecidableEq, Repr

/-- The assembler's forms (rule R86), the in-place pseudo-instructions among them. -/
inductive Asm where
  | cscFwd (dst src : SurfNum)
  | cscFwdR (dst src : SurfNum)
  | cscInv (dst src : SurfNum)
  | cscInvR (dst src : SurfNum)
  | pack (pal : SurfNum)
  | unpack
  | cscFwdInPlace (surf : SurfNum)
  | cscInvInPlace (surf : SurfNum)
deriving DecidableEq, Repr

end Sys2Proof
end

