-- ==== Sys2Proof/WellFormed.lean ====
section
/-! DEFINITION. Which fields make a legal command (30_encoding.md rules R84, R85). The surface numbers and the range mode of
`Instr` are in range by their types; the checks here are those on the raw fields of a command word. -/

namespace Sys2Proof

/-- The RSV bits must be 0 (rule R85). -/
def CmdFields.rsvClear (f : CmdFields) : Bool := f.rsv == 0#23

/-- OP 0x0 and 0x5 .. 0xF are reserved (rule R85). -/
def CmdFields.opDefined (f : CmdFields) : Bool := f.op == 1#4 || f.op == 2#4 || f.op == 3#4 || f.op == 4#4

/-- For PACK, D and R must be 0 (rule R85). -/
def CmdFields.packUnusedClear (f : CmdFields) : Bool := f.op != 3#4 || (f.d == 0#2 && !f.r)

/-- For UNPACK, S, D and R must all be 0 (rule R85). -/
def CmdFields.unpackUnusedClear (f : CmdFields) : Bool := f.op != 4#4 || (f.s == 0#2 && f.d == 0#2 && !f.r)

/-- The fields of a legal command (rules R84, R85). -/
def CmdFields.wellFormed (f : CmdFields) : Bool :=
  f.rsvClear && f.opDefined && f.packUnusedClear && f.unpackUnusedClear

/-- The fields a command is written with (rules R80, R82). -/
def Instr.fields : Instr → CmdFields
  | .cscFwd src dst range => ⟨1, BitVec.ofNat 2 src.val, BitVec.ofNat 2 dst.val, range, 0⟩
  | .cscInv src dst range => ⟨2, BitVec.ofNat 2 src.val, BitVec.ofNat 2 dst.val, range, 0⟩
  | .pack pal             => ⟨3, BitVec.ofNat 2 pal.val, 0, false, 0⟩
  | .unpack               => ⟨4, 0, 0, false, 0⟩

/-- A command is well formed when its fields are legal. -/
def Instr.wellFormed (i : Instr) : Bool := i.fields.wellFormed

end Sys2Proof
end

