-- ==== Sys2Proof/Decode.lean ====
section
/-! DEFINITION. From command words to commands and back (30_encoding.md rules R81, R82, R84, R86). -/

namespace Sys2Proof

/-- The fields of a command word: OP 3:0, S 5:4, D 7:6, R 8, RSV 31:9 (rule R81). -/
def fieldsOf (w : Word) : CmdFields where
  op  := w.extractLsb' 0 4
  s   := w.extractLsb' 4 2
  d   := w.extractLsb' 6 2
  r   := w.getLsbD 8
  rsv := w.extractLsb' 9 23

/-- A two-bit field as a surface number (rule R83). -/
def surfNum (b : BitVec 2) : SurfNum := ⟨b.toNat, b.isLt⟩

/-- Rule R84's `decode` on the fields of a word; `none` is ILLEGAL. -/
def decodeFields (f : CmdFields) : Option Instr :=
  if f.rsv ≠ 0#23 then none
  else if f.op = 1#4 then some (.cscFwd (surfNum f.s) (surfNum f.d) f.r)
  else if f.op = 2#4 then some (.cscInv (surfNum f.s) (surfNum f.d) f.r)
  else if f.op = 3#4 ∧ f.d = 0#2 ∧ f.r = false then some (.pack (surfNum f.s))
  else if f.op = 4#4 ∧ f.s = 0#2 ∧ f.d = 0#2 ∧ f.r = false then some .unpack
  else none

/-- Decoding, total on every 32-bit word (rule R84); `none` is ILLEGAL. -/
def decode (w : Word) : Option Instr := decodeFields (fieldsOf w)

/-- The word of a command by the encoding equation of rule R82, RSV = 0. -/
def encode (i : Instr) : Word :=
  i.fields.op.setWidth 32 ||| (i.fields.s.setWidth 32 <<< 4) ||| (i.fields.d.setWidth 32 <<< 6)
    ||| ((BitVec.ofBool i.fields.r).setWidth 32 <<< 8)

/-- The command a row's word of the opcode table stands for. Every command is one 32-bit word with no longer or shorter
form (rule R81), so `nbits` plays no part and a number above 32 bits is no command. -/
def decodeTableWord (_nbits w : Nat) : Option Instr :=
  if w < 2 ^ 32 then decode (BitVec.ofNat 32 w) else none

/-- The word the assembler gives each form, as the sums of rule R86's table. -/
def Asm.word : Asm → Word
  | .cscFwd dst src   => 0x001 + BitVec.ofNat 32 (src.val <<< 4) + BitVec.ofNat 32 (dst.val <<< 6)
  | .cscFwdR dst src  => 0x101 + BitVec.ofNat 32 (src.val <<< 4) + BitVec.ofNat 32 (dst.val <<< 6)
  | .cscInv dst src   => 0x002 + BitVec.ofNat 32 (src.val <<< 4) + BitVec.ofNat 32 (dst.val <<< 6)
  | .cscInvR dst src  => 0x102 + BitVec.ofNat 32 (src.val <<< 4) + BitVec.ofNat 32 (dst.val <<< 6)
  | .pack pal         => 0x003 + BitVec.ofNat 32 (pal.val <<< 4)
  | .unpack           => 0x004
  | .cscFwdInPlace n  => 0x001 + BitVec.ofNat 32 (n.val <<< 4) + BitVec.ofNat 32 (n.val <<< 6)
  | .cscInvInPlace n  => 0x002 + BitVec.ofNat 32 (n.val <<< 4) + BitVec.ofNat 32 (n.val <<< 6)

/-- The command each assembler form names (rule R86). -/
def Asm.instr : Asm → Instr
  | .cscFwd dst src   => .cscFwd src dst false
  | .cscFwdR dst src  => .cscFwd src dst true
  | .cscInv dst src   => .cscInv src dst false
  | .cscInvR dst src  => .cscInv src dst true
  | .pack pal         => .pack pal
  | .unpack           => .unpack
  | .cscFwdInPlace n  => .cscFwd n n false
  | .cscInvInPlace n  => .cscInv n n false

/-- A surface's name in assembler text, `sN` (rule R86). -/
def surfText (n : SurfNum) : String := "s" ++ toString n.val

/-- The assembler text of each form (rule R86). -/
def Asm.text : Asm → String
  | .cscFwd dst src   => "csc.fwd " ++ surfText dst ++ ", " ++ surfText src
  | .cscFwdR dst src  => "csc.fwd.r " ++ surfText dst ++ ", " ++ surfText src
  | .cscInv dst src   => "csc.inv " ++ surfText dst ++ ", " ++ surfText src
  | .cscInvR dst src  => "csc.inv.r " ++ surfText dst ++ ", " ++ surfText src
  | .pack pal         => "pack " ++ surfText pal
  | .unpack           => "unpack"
  | .cscFwdInPlace n  => "csc.fwd " ++ surfText n
  | .cscInvInPlace n  => "csc.inv " ++ surfText n

end Sys2Proof
end

