-- ==== Sys2Proof/Machine/State.lean ====
section
/-! DEFINITION. The state of CSCPK (10_state.md rules R20 to R41) as plain data, what the host can do to it
(20_memory.md rule R73), why a step can stop, and the state after reset (70_reset_and_hazards.md rules R210, R211). -/

namespace Sys2Proof.Machine

/-- The colour-space tag of a surface: `COLOR` (0) or `CHROMA` (1) (rules R13, R31). -/
inductive Tag where
  | color
  | chroma
deriving DecidableEq, Repr

/-- The error codes the block writes to STATUS.ERR (rule R180); the reserved codes 7–15 are never written. -/
inductive ErrCode where
  | ok
  | invalidArgument
  | sizeMismatch
  | indexOutOfRange
  | wrongDomain
  | illegalCommand
  | outOfBounds
deriving DecidableEq, Repr

/-- A surface descriptor (base, count, tag) (rule R30). -/
structure Surface where
  base  : Word
  count : Word
  tag   : Tag
deriving DecidableEq, Repr

/-- The four surface descriptors SURF0 to SURF3 (rules R24, R30). -/
structure Surfaces where
  surf0 : Surface
  surf1 : Surface
  surf2 : Surface
  surf3 : Surface
deriving DecidableEq, Repr

/-- The configuration registers a command reads: exactly those that rule R41's snapshot copies. -/
structure ConfigRegs where
  width      : Half
  height     : Half
  k          : BitVec 9
  rangeFirst : Word
  rangeCount : Word
  idxBase    : Word
  outBase    : Word
  outSize    : Word
  surfaces   : Surfaces
deriving DecidableEq, Repr

/-- The pending command: the CMD word and the copy of the registers taken at its start (rules R34, R40, R41). -/
structure Pending where
  word : Word
  snap : ConfigRegs
deriving DecidableEq, Repr

/-- The buffer memory: the bytes somebody has written, by rising address (`Memory.wf`). An address that is not listed
holds no written byte and reads as its power-on draw (`Memory.readByte`). -/
abbrev Memory := List Host.Cell

/-- What the host can do in one step (rules R22, R61, R73, R87, R210). `width` is the access width in bytes; a write's
value stands in the low bytes of `v`. -/
inductive HostOp where
  | regWrite  (off width : Nat) (v : Word)
  | regRead   (off width : Nat)
  | memWrite  (addr width : Nat) (v : Word)
  | memRead   (addr width : Nat)
  /-- The host drives the reset input: asserted, or released (rule R210). -/
  | resetLine (asserted : Bool)
deriving DecidableEq, Repr

/-- Who moves next in the interleaving of rule R73: the host, with one access, or the block's engine. -/
inductive Event where
  | host (op : HostOp)
  | engine
deriving DecidableEq, Repr

/-- The reasons a step can fault: none. A command that cannot be carried out completes with an error code, the block
raises no exception at any other time (rule R188), and host accesses never raise a block error. No meaning and no step
answers a fault. -/
inductive Fault where
deriving DecidableEq, Repr

/-- The reasons a step can be refused. -/
inductive Refusal where
  /-- Raised by `exec` for a command that has no meaning in this model: no arm does. Safe: the run stops. -/
  | notModelled (mnemonic : String)
  /-- Raised by a host register access that is not 32 bits wide, is misaligned or lies at offset 0x080 or above
  (rule R22, U10). Safe: the run stops. -/
  | registerAccess
  /-- Raised by a host buffer access that is not 1, 2 or 4 bytes wide (rule R61). Safe: the run stops. -/
  | bufferWidth
  /-- Raised by a host buffer access that reaches an address at or above MEM_BYTES (rule R61, U11). Safe: the run
  stops. -/
  | bufferAddress
deriving DecidableEq, Repr

/-- The whole state. STATUS.BUSY is not stored a second time: it is 1 exactly while a command is pending (rules R20, R34),
and `State.busy` reads it off `pending`. -/
structure State where
  /-- The parameters of rule R8, which no step changes (log entry 4). -/
  params        : Params
  /-- CMD (rules R24, R25): the last value stored. -/
  cmd           : Word
  /-- STATUS.DONE (rule R24). -/
  done          : Bool
  /-- STATUS.WBUSY (rules R24, R26). -/
  wbusy         : Bool
  /-- STATUS.ERR (rules R24, R180). -/
  err           : ErrCode
  /-- IRQ_EN.DONE_IE (rule R24). -/
  doneIe        : Bool
  /-- ERR_INFO (rules R24, R183). -/
  errInfo       : Word
  /-- DIM, K, RANGE_FIRST, RANGE_COUNT, IDX_BASE, OUT_BASE, OUT_SIZE and the surface descriptors (rules R24, R30). -/
  regs          : ConfigRegs
  /-- The buffer memory (rule R60). -/
  mem           : Memory
  /-- The pending command, present exactly while BUSY = 1 (rule R34). -/
  pending       : Option Pending
  /-- The race mark (rule R35). -/
  race          : Bool
  /-- The level of the reset input (rule R210, log entry 7). -/
  resetAsserted : Bool
  /-- The model's own: the moves still to come, the next one first; when none is left the engine moves (log entry 5). -/
  schedule      : List Event
  /-- The model's own: the value the last host read returned, `none` before the first (log entry 6). -/
  readData      : Option Word
  /-- The model's own: how many free values have been drawn (log entry 2). -/
  draws         : Nat
deriving DecidableEq, Repr

/-- A descriptor's reset value: base 0, count 0, tag `COLOR` (rule R24). -/
def Surface.reset : Surface := ⟨0, 0, .color⟩

/-- The configuration registers' reset values: all 0 (rules R24, R210). -/
def ConfigRegs.reset : ConfigRegs :=
  ⟨0, 0, 0, 0, 0, 0, 0, 0, ⟨.reset, .reset, .reset, .reset⟩⟩

/-- The machine right after power-on and reset: every register 0, every tag `COLOR`, idle, no buffer byte written, the
reset input released (rules R24, R35, R77, R210, R211), with the default parameters of rule R8. -/
def State.reset : State where
  params        := .default
  cmd           := 0
  done          := false
  wbusy         := false
  err           := .ok
  doneIe        := false
  errInfo       := 0
  regs          := .reset
  mem           := []
  pending       := none
  race          := false
  resetAsserted := false
  schedule      := []
  readData      := none
  draws         := 0

end Sys2Proof.Machine
end

