-- ==== Sys2Proof/Machine/Ops.lean ====
section
/-! DEFINITION. The named operations over the buffer memory, the surface descriptors and the whole state: byte access,
draws, a command's start (rule R40) and its completion with a code (rules R185, R186), reset (rules R210 to R212). -/

namespace Sys2Proof.Machine

/-! ### The buffer memory -/

/-- The byte written at an address, if anybody has written it. -/
def Memory.lookupByte : Memory → Nat → Option Byte
  | [], _ => none
  | (b, v) :: m, a => if a = b then some v else Memory.lookupByte m a

/-- What a buffer byte reads as: the byte written last, or the power-on draw where nobody has written (rule R77). -/
def Memory.readByte (m : Memory) (a : Nat) : Byte := (m.lookupByte a).getD (Config.powerOnByte a)

/-- Writing one byte, keeping the listed addresses in rising order. -/
def Memory.writeByte : Memory → Nat → Byte → Memory
  | [], a, v => [(a, v)]
  | (b, x) :: m, a, v =>
    if a < b then (a, v) :: (b, x) :: m
    else if a = b then (a, v) :: m
    else (b, x) :: Memory.writeByte m a v

/-- Writing bytes at consecutive addresses, the first at `a`. -/
def Memory.writeBytes : Memory → Nat → List Byte → Memory
  | m, _, [] => m
  | m, a, v :: vs => Memory.writeBytes (m.writeByte a v) (a + 1) vs

/-- The canonical form: listed addresses strictly rise. -/
abbrev Memory.wf (m : Memory) : Prop := m.Pairwise fun c d => c.1 < d.1

/-- Every listed address lies in a buffer memory of `memBytes` bytes (rule R60). -/
abbrev Memory.inside (m : Memory) (memBytes : Nat) : Prop := ∀ c ∈ m, c.1 < memBytes

/-- A little-endian number's low `n` bytes, the least significant first (rules R10, R61). -/
def bytesOfWord (v : Word) (n : Nat) : List Byte := (List.range n).map fun i => v.extractLsb' (8 * i) 8

/-- The little-endian number of a list of at most four bytes, the least significant first (rules R10, R61). -/
def wordOfBytes : List Byte → Word
  | [] => 0
  | b :: bs => (wordOfBytes bs <<< 8) ||| b.setWidth 32

/-- The byte whose bit `i` is `f i` (rule R66: bit 0 is the first stream bit of a byte). -/
def byteOfBits (f : Nat → Bool) : Byte := BitVec.ofFnLE fun i : Fin 8 => f i.val

/-! ### Extents (rules R70 to R72) -/

/-- The extent `[base, base + len)` of rule R70. -/
structure Extent where
  base : Nat
  len  : Nat
deriving DecidableEq, Repr

/-- The address belongs to the extent (rule R70). -/
def Extent.contains (e : Extent) (a : Nat) : Bool := e.base ≤ a && a < e.base + e.len

/-- The extent is in bounds (rule R71). -/
def Extent.inBounds (e : Extent) (memBytes : Nat) : Bool := e.len == 0 || e.base + e.len ≤ memBytes

/-- Two extents overlap (rule R72). -/
def Extent.overlaps (e f : Extent) : Bool :=
  0 < e.len && 0 < f.len && e.base < f.base + f.len && f.base < e.base + e.len

/-- The part of an extent that lies in the buffer memory. -/
def Extent.clip (e : Extent) (memBytes : Nat) : Extent := ⟨e.base, min (e.base + e.len) memBytes - e.base⟩

/-! ### Surface descriptors (rule R30) -/

/-- `surf[i]`. -/
def Surfaces.get (f : Surfaces) : SurfNum → Surface
  | 0 => f.surf0
  | 1 => f.surf1
  | 2 => f.surf2
  | 3 => f.surf3

/-- `surf[i] <- x`. -/
def Surfaces.set (f : Surfaces) (i : SurfNum) (x : Surface) : Surfaces :=
  match i with
  | 0 => { f with surf0 := x }
  | 1 => { f with surf1 := x }
  | 2 => { f with surf2 := x }
  | 3 => { f with surf3 := x }

/-- `surf[i]` of a register file. -/
def ConfigRegs.surf (c : ConfigRegs) (i : SurfNum) : Surface := c.surfaces.get i

/-- `surf[i] <- x` on a register file. -/
def ConfigRegs.setSurf (c : ConfigRegs) (i : SurfNum) (x : Surface) : ConfigRegs :=
  { c with surfaces := c.surfaces.set i x }

/-- `surf[i].tag <- t` (rule R32). -/
def ConfigRegs.setTag (c : ConfigRegs) (i : SurfNum) (t : Tag) : ConfigRegs :=
  c.setSurf i { c.surf i with tag := t }

/-! ### A command's start, its operands and its completion -/

/-- STATUS.BUSY: a command is pending (rules R24, R34). -/
def State.busy (s : State) : Bool := s.pending.isSome

/-- The registers a command reads its operands from: the copy taken at its start (rule R41). A command that is performed
with none pending, which `step` never does, reads the live registers (log entry 11). -/
def State.operands (s : State) : ConfigRegs :=
  match s.pending with
  | some p => p.snap
  | none => s.regs

/-- Command start (rule R40). -/
def State.startCommand (v : Word) (s : State) : State :=
  { s with
    cmd := v
    done := false
    err := .ok
    errInfo := 0
    pending := some ⟨v, s.regs⟩ }

/-- What performing a command yields (rule R186): its code, the ERR_INFO it writes if any, the bytes it writes and where,
the tag it writes if any, and how many free values it drew. -/
structure Result where
  err   : ErrCode
  info  : Option Word
  base  : Nat
  bytes : List Byte
  tag   : Option (SurfNum × Tag)
  drawn : Nat
deriving DecidableEq, Repr

/-- `raise <Code>`: a failed command writes no buffer byte and no tag (rules R10, R185). -/
def Result.fail (code : ErrCode) : Result := ⟨code, none, 0, [], none, 0⟩

/-- The registers after a result's tag write (rule R186). -/
def Result.applyTag (r : Result) (c : ConfigRegs) : ConfigRegs :=
  match r.tag with
  | some (i, t) => c.setTag i t
  | none => c

/-- The completion step's effect, one operation shared by every command and every error code (rules R185, R186). -/
def State.complete (r : Result) (s : State) : State :=
  { s with
    mem := s.mem.writeBytes r.base r.bytes
    regs := r.applyTag s.regs
    err := r.err
    errInfo := r.info.getD s.errInfo
    done := true
    pending := none
    draws := s.draws + r.drawn }

/-- The return from a completion, as far as the block has one (rules R27, R192): writing 1 to DONE or WBUSY clears it. -/
def State.acknowledge (v : Word) (s : State) : State :=
  { s with done := s.done && !v.getLsbD 1, wbusy := s.wbusy && !v.getLsbD 2 }

/-! ### Unspecified bytes -/

/-- `n` free bytes, from draw number `start` on. -/
def freeBytes (start n : Nat) : List Byte := (List.range n).map fun i => Config.freeByte (start + i)

/-- Every byte of the extent that lies in the buffer memory becomes a draw (rules R185, R212, R221). -/
def State.scramble (e : Extent) (s : State) : State :=
  { s with
    mem := s.mem.writeBytes (e.clip s.params.memBytes).base (freeBytes s.draws (e.clip s.params.memBytes).len)
    draws := s.draws + (e.clip s.params.memBytes).len }

/-- `State.scramble` on one extent after another. -/
def State.scrambleAll : List Extent → State → State
  | [], s => s
  | e :: es, s => State.scrambleAll es (s.scramble e)

/-! ### Reset (rules R210, R212) -/

/-- Every register takes its reset value and a pending command is dropped; buffer bytes, the race mark and the reset
input's level stay (rules R35, R210, R211). -/
def State.resetRegisters (s : State) : State :=
  { s with
    cmd := 0
    done := false
    wbusy := false
    err := .ok
    doneIe := false
    errInfo := 0
    regs := .reset
    pending := none }

end Sys2Proof.Machine
end

