-- ==== Sys2Proof/Machine/Operands.lean ====
section
/-! DEFINITION. The operands of the commands and the checks on them: pixel ranges and argument checks of the converter
(40_csc.md rules R110 to R112), operands, sizes and checks of the packer (41_packer.md rules R140, R141, R150), and the
footprint of a command (20_memory.md rule R70). -/

namespace Sys2Proof.Machine

/-- The code of the first check that holds, in the listed order (rules R150, R184). -/
def firstError (checks : List (Bool × ErrCode)) : Option ErrCode := (checks.find? (·.1)).map (·.2)

/-! ### CSC_FWD and CSC_INV -/

/-- `surf[i]`'s whole extent: three bytes a pixel (rules R30, R111). -/
def surfaceExtent (x : Surface) : Extent := ⟨x.base.toNat, 3 * x.count.toNat⟩

/-- First pixel of the range a CSC command converts (rule R110). -/
def cscFirst (range : Bool) (c : ConfigRegs) : Nat := if range then c.rangeFirst.toNat else 0

/-- Pixel count of the range a CSC command converts (rule R110). -/
def cscCount (src : SurfNum) (range : Bool) (c : ConfigRegs) : Nat :=
  if range then c.rangeCount.toNat else (c.surf src).count.toNat

/-- The argument checks 1 to 4 of rule R111. -/
def cscBadArgument (src dst : SurfNum) (range : Bool) (c : ConfigRegs) : Bool :=
  let first := cscFirst range c
  let n := cscCount src range c
  (!range && (c.surf src).count != (c.surf dst).count)
    || (range && decide ((c.surf src).count.toNat < first + n))
    || (range && decide ((c.surf dst).count.toNat < first + n))
    || (src != dst && (c.surf src).base != (c.surf dst).base
        && (surfaceExtent (c.surf src)).overlaps (surfaceExtent (c.surf dst)))

/-- The bounds check of rule R112 fails: it covers both whole surfaces, not only the converted range. -/
def cscOutOfBounds (src dst : SurfNum) (c : ConfigRegs) (memBytes : Nat) : Bool :=
  !(surfaceExtent (c.surf src)).inBounds memBytes || !(surfaceExtent (c.surf dst)).inBounds memBytes

/-- The code a CSC command raises before it converts anything, if any: INVALID_ARGUMENT, then OUT_OF_BOUNDS (rule R184). -/
def cscError (src dst : SurfNum) (range : Bool) (c : ConfigRegs) (memBytes : Nat) : Option ErrCode :=
  firstError [(cscBadArgument src dst range c, .invalidArgument), (cscOutOfBounds src dst c memBytes, .outOfBounds)]

/-! ### PACK and UNPACK -/

/-- `ceil_log2(k)`, the least `b` with `2^b ≥ k` (rules R10, R140). -/
def ceilLog2 (k : Nat) : Nat := ((List.range (k + 1)).find? fun b => decide (k ≤ 2 ^ b)).getD 0

/-- Bits per pixel (rule R140). -/
def bpp (k : Nat) : Nat := ceilLog2 k

/-- `ceil_div(a, b)` (rule R10). -/
def ceilDiv (a b : Nat) : Nat := (a + b - 1) / b

/-- Packed size (rule R141). -/
def packedSize (k npix : Nat) : Nat := 2 * k + ceilDiv (npix * bpp k) 8

/-- `k = reg[K]` (rule R150). -/
def ConfigRegs.kNat (c : ConfigRegs) : Nat := c.k.toNat

/-- `npix = WIDTH · HEIGHT` (rule R150). -/
def ConfigRegs.npix (c : ConfigRegs) : Nat := c.width.toNat * c.height.toNat

/-- The extent PAL of rule R150. -/
def palExtent (pal : SurfNum) (c : ConfigRegs) : Extent := ⟨(c.surf pal).base.toNat, 3 * c.kNat⟩

/-- The extent IDX of rule R150. -/
def idxExtent (c : ConfigRegs) : Extent := ⟨c.idxBase.toNat, c.npix⟩

/-- The extent OUT of rule R150. -/
def outExtent (c : ConfigRegs) : Extent := ⟨c.outBase.toNat, c.outSize.toNat⟩

/-- Check 1 of rule R150 fails: `k = 0` or `k > K_MAX`. -/
def badK (c : ConfigRegs) : Bool := c.kNat == 0 || decide (Config.kMax < c.kNat)

/-- Check 6 of rule R150 fails: OUT_SIZE is not the packed size. -/
def badSize (c : ConfigRegs) : Bool := c.outSize.toNat != packedSize c.kNat c.npix

/-- Checks 1 to 6 of rule R150 for PACK, in their order. -/
def packError (pal : SurfNum) (c : ConfigRegs) (memBytes : Nat) : Option ErrCode :=
  firstError [
    (badK c, .invalidArgument),
    ((c.surf pal).count.toNat != c.kNat, .invalidArgument),
    ((outExtent c).overlaps (idxExtent c) || (outExtent c).overlaps (palExtent pal c), .invalidArgument),
    (!(outExtent c).inBounds memBytes || !(idxExtent c).inBounds memBytes || !(palExtent pal c).inBounds memBytes,
      .outOfBounds),
    ((c.surf pal).tag != .color, .wrongDomain),
    (badSize c, .sizeMismatch)]

/-- Checks 1, 3, 4 and 6 of rule R150 for UNPACK, in their order (rule R160). -/
def unpackError (c : ConfigRegs) (memBytes : Nat) : Option ErrCode :=
  firstError [
    (badK c, .invalidArgument),
    ((outExtent c).overlaps (idxExtent c), .invalidArgument),
    (!(outExtent c).inBounds memBytes || !(idxExtent c).inBounds memBytes, .outOfBounds),
    (badSize c, .sizeMismatch)]

/-! ### Footprints (rule R70) -/

/-- The extent of the pixels a CSC command reads or writes on a surface. -/
def cscRangeExtent (x : Surface) (first n : Nat) : Extent := ⟨x.base.toNat + 3 * first, 3 * n⟩

/-- The extents a command reads (rule R70). -/
def readExtents (i : Instr) (c : ConfigRegs) : List Extent :=
  match i with
  | .cscFwd src _ range => [cscRangeExtent (c.surf src) (cscFirst range c) (cscCount src range c)]
  | .cscInv src _ range => [cscRangeExtent (c.surf src) (cscFirst range c) (cscCount src range c)]
  | .pack pal => [palExtent pal c, idxExtent c]
  | .unpack => [outExtent c]

/-- The extent a command writes (rule R70). -/
def writeExtent (i : Instr) (c : ConfigRegs) : Extent :=
  match i with
  | .cscFwd src dst range => cscRangeExtent (c.surf dst) (cscFirst range c) (cscCount src range c)
  | .cscInv src dst range => cscRangeExtent (c.surf dst) (cscFirst range c) (cscCount src range c)
  | .pack _ => outExtent c
  | .unpack => idxExtent c

/-- The extents the pending command writes: none for a word that decodes to ILLEGAL (rules R70, R185, log
entry 14). -/
def Pending.writes (p : Pending) : List Extent :=
  match decode p.word with
  | some i => [writeExtent i p.snap]
  | none => []

/-- The footprint of the pending command: the extents it writes and reads (rule R70). -/
def Pending.footprint (p : Pending) : List Extent :=
  match decode p.word with
  | some i => writeExtent i p.snap :: readExtents i p.snap
  | none => []

/-- The address belongs to the pending command's footprint (rule R221). -/
def State.inFootprint (s : State) (a : Nat) : Bool :=
  match s.pending with
  | some p => p.footprint.any (·.contains a)
  | none => false

end Sys2Proof.Machine
end

