-- ==== Sys2Proof/Machine/Csc.lean ====
section
/-! DEFINITION. The colour-space converter: the per-pixel arithmetic (40_csc.md rules R100 to R108) and the commands CSC_FWD
(rule R120) and CSC_INV (rule R125). -/

namespace Sys2Proof.Machine

/-! ### Per-pixel arithmetic, exact in ℤ over the denominator 10000 -/

/-- `sat(v, lo, hi)` (rule R10). -/
def sat (v lo hi : Int) : Int := if v < lo then lo else if hi < v then hi else v

/-- `round_nearest(n / den)` (rule R103): AWAY is `sign(q) · floor(|q| + 1/2)`; under EVEN an exact .5 goes to the even
neighbour. -/
def roundNearest (ties : RoundTies) (n : Int) (den : Nat) : Int :=
  match ties with
  | .away => n.sign * ((2 * n.natAbs + den) / (2 * den) : Nat)
  | .even =>
    let fl := n / den
    let rem := n % den
    if 2 * rem < den then fl
    else if den < 2 * rem then fl + 1
    else if fl % 2 = 0 then fl else fl + 1

/-- A pixel in the chroma domain, as numbers (rule R12). -/
structure Chroma where
  y  : Int
  cb : Int
  cr : Int
deriving DecidableEq, Repr

/-- A pixel in the colour domain, as numbers (rule R12). -/
structure Rgb where
  r : Int
  g : Int
  b : Int
deriving DecidableEq, Repr

/-- The numerator of Y over 10000 (rule R102). -/
def numY (r g b : Int) : Int := 2126 * r + 7152 * g + 722 * b

/-- The numerator of Cb over 10000 (rule R102). -/
def numCb (r g b : Int) : Int := -1146 * r - 3854 * g + 5000 * b

/-- The numerator of Cr over 10000 (rule R102). -/
def numCr (r g b : Int) : Int := 5000 * r - 4542 * g - 458 * b

/-- The forward reference function (rules R102, R104). -/
def fwd (ties : RoundTies) (r g b : Int) : Chroma where
  y  := sat (roundNearest ties (numY r g b) 10000) 0 255
  cb := sat (roundNearest ties (numCb r g b) 10000) (-128) 127
  cr := sat (roundNearest ties (numCr r g b) 10000) (-128) 127

/-- The numerator of R over 10000 (rule R106). -/
def numR (y cr : Int) : Int := 10000 * y + 15748 * cr

/-- The numerator of G over 10000 (rule R106). -/
def numG (y cb cr : Int) : Int := 10000 * y - 1873 * cb - 4681 * cr

/-- The numerator of B over 10000 (rule R106). -/
def numB (y cb : Int) : Int := 10000 * y + 18556 * cb

/-- The inverse reference function: `trunc`, toward zero, then `sat` (rule R106). -/
def inv (y cb cr : Int) : Rgb where
  r := sat ((numR y cr).tdiv 10000) 0 255
  g := sat ((numG y cb cr).tdiv 10000) 0 255
  b := sat ((numB y cb).tdiv 10000) 0 255

/-- A value within 1 of the reference and inside the channel's range, chosen by a drawn number (rule R108). Every such
value is the choice of some number. -/
def nudge (lo hi ref : Int) (drawn : Nat) : Int := sat (ref + (drawn % 3 : Nat) - 1) lo hi

/-- One output channel (rule R108): the reference value under EXACT, the value of draw number `draw` under TOLERANT. -/
def channel (arith : CscArith) (lo hi ref : Int) (draw : Nat) : Int :=
  match arith with
  | .exact => ref
  | .tolerant => nudge lo hi ref (Config.freeChoice draw)

/-- The three CHROMA bytes Y, Cb, Cr of the COLOR bytes B, G, R (rules R62, R63, R120). -/
def fwdPixel (p : Params) (draw : Nat) (b g r : Byte) : List Byte :=
  let ref := fwd p.roundTies r.toNat g.toNat b.toNat
  [BitVec.ofInt 8 (channel p.cscArith 0 255 ref.y draw),
   BitVec.ofInt 8 (channel p.cscArith (-128) 127 ref.cb (draw + 1)),
   BitVec.ofInt 8 (channel p.cscArith (-128) 127 ref.cr (draw + 2))]

/-- The three COLOR bytes B, G, R of the CHROMA bytes Y, Cb, Cr (rules R62, R63, R125). -/
def invPixel (p : Params) (draw : Nat) (y cb cr : Byte) : List Byte :=
  let ref := inv y.toNat cb.toInt cr.toInt
  [BitVec.ofInt 8 (channel p.cscArith 0 255 ref.b draw),
   BitVec.ofInt 8 (channel p.cscArith 0 255 ref.g (draw + 1)),
   BitVec.ofInt 8 (channel p.cscArith 0 255 ref.r (draw + 2))]

/-! ### The commands -/

/-- The bytes of `n` converted pixels read from `sa` on, every one from the memory `m0` as it was at the completion step
(rule R114). -/
def cscBytes (pixel : Nat → Byte → Byte → Byte → List Byte) (m0 : Memory) (sa draw n : Nat) : List Byte :=
  (List.range n).flatMap fun i =>
    pixel (draw + 3 * i) (m0.readByte (sa + 3 * i)) (m0.readByte (sa + 3 * i + 1)) (m0.readByte (sa + 3 * i + 2))

/-- How many values a conversion of `n` pixels draws (rule R108). -/
def cscDrawn (arith : CscArith) (n : Nat) : Nat :=
  match arith with
  | .exact => 0
  | .tolerant => 3 * n

/-- The body the two CSC commands share: the checks, the converted bytes at the destination's range, and the
destination's new tag (rules R110 to R114, R120, R125). -/
def cscResult (pixel : Params → Nat → Byte → Byte → Byte → List Byte) (newTag : Tag) (src dst : SurfNum) (range : Bool)
    (s : State) : Result :=
  let c := s.operands
  let first := cscFirst range c
  let n := cscCount src range c
  match cscError src dst range c s.params.memBytes with
  | some e => .fail e
  | none =>
    { err   := .ok
      info  := none
      base  := (c.surf dst).base.toNat + 3 * first
      bytes := cscBytes (pixel s.params) s.mem ((c.surf src).base.toNat + 3 * first) s.draws n
      tag   := some (dst, newTag)
      drawn := cscDrawn s.params.cscArith n }

/-- CSC_FWD (rule R120). -/
def execCscFwd (src dst : SurfNum) (range : Bool) (s : State) : Host.Outcome State Fault Refusal :=
  .next (s.complete (cscResult fwdPixel .chroma src dst range s))

/-- CSC_INV (rule R125). -/
def execCscInv (src dst : SurfNum) (range : Bool) (s : State) : Host.Outcome State Fault Refusal :=
  .next (s.complete (cscResult invPixel .color src dst range s))

end Sys2Proof.Machine
end

