-- ==== Sys2Proof/Machine/Packer.lean ====
section
/-! DEFINITION. The palette packer and index codec: the packed format (41_packer.md rules R142 to R146) and the commands PACK
(rule R155) and UNPACK (rule R160). -/

namespace Sys2Proof.Machine

/-- The RGB565 word of a COLOR pixel (rule R142). -/
def rgb565 (b g r : Byte) : Half :=
  ((r >>> 3).setWidth 16 <<< 11) ||| ((g >>> 2).setWidth 16 <<< 5) ||| (b >>> 3).setWidth 16

/-- The palette section: `k` little-endian RGB565 words of the palette pixels at `base` (rule R143). -/
def paletteBytes (m0 : Memory) (base k : Nat) : List Byte :=
  (List.range k).flatMap fun i =>
    let v := rgb565 (m0.readByte (base + 3 * i)) (m0.readByte (base + 3 * i + 1)) (m0.readByte (base + 3 * i + 2))
    [v.extractLsb' 0 8, v.extractLsb' 8 8]

/-- Stream bit `s` of the index array at `idx`, `w` bits a pixel: bit `s mod w` of index `s div w` (rule R144). -/
def indexStreamBit (m0 : Memory) (idx w s : Nat) : Bool := (m0.readByte (idx + s / w)).getLsbD (s % w)

/-- Byte `t` of the index section, its padding bits 0 (rules R144, R145). -/
def packedIndexByte (m0 : Memory) (idx w npix t : Nat) : Byte :=
  byteOfBits fun q => decide (8 * t + q < npix * w) && indexStreamBit m0 idx w (8 * t + q)

/-- The index section (rules R144 to R146). -/
def indexBytes (m0 : Memory) (idx w npix : Nat) : List Byte :=
  (List.range (ceilDiv (npix * w) 8)).map (packedIndexByte m0 idx w npix)

/-- The index of pixel `p` decoded from the index section at `sect`, `w` bits a pixel (rules R144, R160). -/
def unpackedIndex (m0 : Memory) (sect w p : Nat) : Byte :=
  byteOfBits fun j => decide (j < w) && (m0.readByte (sect + (p * w + j) / 8)).getLsbD ((p * w + j) % 8)

/-- The least pixel whose index is `k` or more (rules R155, R160, R183). -/
def firstBadIndex (k npix : Nat) (index : Nat → Byte) : Option Nat :=
  (List.range npix).find? fun p => decide (k ≤ (index p).toNat)

/-- INDEX_OUT_OF_RANGE at pixel `p`: ERR_INFO is `p`, and every byte of the write extent becomes a draw (rules R183,
R185). -/
def indexError (p draws : Nat) (e : Extent) : Result where
  err   := .indexOutOfRange
  info  := some (BitVec.ofNat 32 p)
  base  := e.base
  bytes := freeBytes draws e.len
  tag   := none
  drawn := e.len

/-- What PACK does (rules R150, R155). -/
def packResult (pal : SurfNum) (s : State) : Result :=
  let c := s.operands
  match packError pal c s.params.memBytes with
  | some e => .fail e
  | none =>
    match firstBadIndex c.kNat c.npix (fun p => s.mem.readByte (c.idxBase.toNat + p)) with
    | some p => indexError p s.draws (outExtent c)
    | none =>
      { err   := .ok
        info  := none
        base  := c.outBase.toNat
        bytes := paletteBytes s.mem (c.surf pal).base.toNat c.kNat
                   ++ indexBytes s.mem c.idxBase.toNat (bpp c.kNat) c.npix
        tag   := none
        drawn := 0 }

/-- The indices UNPACK decodes: `npix` of them from the index section of the packed buffer (rule R160). -/
def unpackIndexAt (c : ConfigRegs) (m0 : Memory) (p : Nat) : Byte :=
  unpackedIndex m0 (c.outBase.toNat + 2 * c.kNat) (bpp c.kNat) p

/-- What UNPACK does (rules R150, R160). -/
def unpackResult (s : State) : Result :=
  let c := s.operands
  match unpackError c s.params.memBytes with
  | some e => .fail e
  | none =>
    match firstBadIndex c.kNat c.npix (unpackIndexAt c s.mem) with
    | some p => indexError p s.draws (idxExtent c)
    | none =>
      { err   := .ok
        info  := none
        base  := c.idxBase.toNat
        bytes := (List.range c.npix).map (unpackIndexAt c s.mem)
        tag   := none
        drawn := 0 }

/-- PACK (rule R155). -/
def execPack (pal : SurfNum) (s : State) : Host.Outcome State Fault Refusal :=
  .next (s.complete (packResult pal s))

/-- UNPACK (rule R160). -/
def execUnpack (s : State) : Host.Outcome State Fault Refusal :=
  .next (s.complete (unpackResult s))

end Sys2Proof.Machine
end

