-- ==== Sys2Proof/Machine/Dispatch.lean ====
section
/-! DEFINITION. Each command's meaning: what its completion step does (60_exceptions.md rule R186). -/

namespace Sys2Proof.Machine

def exec (i : Instr) (s : State) : Host.Outcome State Fault Refusal :=
  match i with
  | .cscFwd src dst range => Sys2Proof.Machine.execCscFwd src dst range s
  | .cscInv src dst range => Sys2Proof.Machine.execCscInv src dst range s
  | .pack pal => Sys2Proof.Machine.execPack pal s
  | .unpack => Sys2Proof.Machine.execUnpack s

end Sys2Proof.Machine
end

