-- ==== Sys2Proof/Machine/Flags.lean ====
section
/-! DEFINITION. The codes and the status word: STATUS as the host reads it (10_state.md rule R24), the numbers of the error
codes (60_exceptions.md rule R180) and of the tags (rule R13), and the interrupt output (rule R190). -/

namespace Sys2Proof.Machine

/-- The number of each error code (rule R180). -/
def ErrCode.code : ErrCode → BitVec 4
  | .ok              => 0
  | .invalidArgument => 1
  | .sizeMismatch    => 2
  | .indexOutOfRange => 3
  | .wrongDomain     => 4
  | .illegalCommand  => 5
  | .outOfBounds     => 6

/-- The number of each tag (rules R13, R24). -/
def Tag.bit : Tag → BitVec 1
  | .color  => 0
  | .chroma => 1

/-- The tag of a SURFi_TAG bit (rules R13, R24). -/
def Tag.ofBit (b : Bool) : Tag := if b then .chroma else .color

/-- STATUS as the host reads it: ERR in 7:4, WBUSY in bit 2, DONE in bit 1, BUSY in bit 0, the rest 0 (rule R24). -/
def State.statusWord (s : State) : Word :=
  0#24 ++ s.err.code ++ 0#1 ++ BitVec.ofBool s.wbusy ++ BitVec.ofBool s.done ++ BitVec.ofBool s.busy

/-- The interrupt output, `DONE AND DONE_IE` (rule R190). -/
def State.irq (s : State) : Bool := s.done && s.doneIe

end Sys2Proof.Machine
end

