-- ==== Sys2Proof/Machine/HostAccess.lean ====
section
/-! DEFINITION. What the host does to the block: register accesses (10_state.md rules R22 to R28), buffer accesses
(20_memory.md rule R61, 70_reset_and_hazards.md rule R221) and the reset input (rules R210 to R212). -/

namespace Sys2Proof.Machine

/-! ### Registers -/

/-- The registers of rule R24, and the reserved offsets of rule R23. -/
inductive Reg where
  | cmd
  | status
  | irqEn
  | errInfo
  | dim
  | k
  | rangeFirst
  | rangeCount
  | idxBase
  | outBase
  | outSize
  | surfBase (i : SurfNum)
  | surfCount (i : SurfNum)
  | surfTag (i : SurfNum)
  | reserved
deriving DecidableEq, Repr

/-- The register at the 4-byte-aligned offset `4 · n` (rules R23, R24). -/
def Reg.ofIndex : Nat → Reg
  | 0 => .cmd
  | 1 => .status
  | 2 => .irqEn
  | 3 => .errInfo
  | 4 => .dim
  | 5 => .k
  | 6 => .rangeFirst
  | 7 => .rangeCount
  | 8 => .idxBase
  | 9 => .outBase
  | 10 => .outSize
  | 16 => .surfBase 0
  | 17 => .surfCount 0
  | 18 => .surfTag 0
  | 20 => .surfBase 1
  | 21 => .surfCount 1
  | 22 => .surfTag 1
  | 24 => .surfBase 2
  | 25 => .surfCount 2
  | 26 => .surfTag 2
  | 28 => .surfBase 3
  | 29 => .surfCount 3
  | 30 => .surfTag 3
  | _ => .reserved

/-- A register's offset (rules R23, R24); for the reserved offsets, their first one. -/
def Reg.offset : Reg → Nat
  | .cmd         => 0x000
  | .status      => 0x004
  | .irqEn       => 0x008
  | .errInfo     => 0x00C
  | .dim         => 0x010
  | .k           => 0x014
  | .rangeFirst  => 0x018
  | .rangeCount  => 0x01C
  | .idxBase     => 0x020
  | .outBase     => 0x024
  | .outSize     => 0x028
  | .surfBase i  => 0x040 + 0x10 * i.val
  | .surfCount i => 0x044 + 0x10 * i.val
  | .surfTag i   => 0x048 + 0x10 * i.val
  | .reserved    => 0x02C

/-- Which host accesses to the register space have an effect: aligned 32-bit ones below offset 0x080 (rule R22). -/
def regAccessOk (off width : Nat) : Bool := width == 4 && off % 4 == 0 && decide (off < 0x80)

/-- A register as the host reads it; reserved fields and offsets read 0, and no read has a side effect (rules R23, R24,
R68). -/
def State.readReg (s : State) : Reg → Word
  | .cmd         => s.cmd
  | .status      => s.statusWord
  | .irqEn       => (BitVec.ofBool s.doneIe).setWidth 32
  | .errInfo     => s.errInfo
  | .dim         => s.regs.height ++ s.regs.width
  | .k           => s.regs.k.setWidth 32
  | .rangeFirst  => s.regs.rangeFirst
  | .rangeCount  => s.regs.rangeCount
  | .idxBase     => s.regs.idxBase
  | .outBase     => s.regs.outBase
  | .outSize     => s.regs.outSize
  | .surfBase i  => (s.regs.surf i).base
  | .surfCount i => (s.regs.surf i).count
  | .surfTag i   => (s.regs.surf i).tag.bit.setWidth 32
  | .reserved    => 0

/-- The configuration registers after a host write that takes effect; a write ignores reserved bits (rules R23, R24,
R28). -/
def ConfigRegs.write (c : ConfigRegs) (reg : Reg) (v : Word) : ConfigRegs :=
  match reg with
  | .dim         => { c with width := v.extractLsb' 0 16, height := v.extractLsb' 16 16 }
  | .k           => { c with k := v.extractLsb' 0 9 }
  | .rangeFirst  => { c with rangeFirst := v }
  | .rangeCount  => { c with rangeCount := v }
  | .idxBase     => { c with idxBase := v }
  | .outBase     => { c with outBase := v }
  | .outSize     => { c with outSize := v }
  | .surfBase i  => c.setSurf i { c.surf i with base := v }
  | .surfCount i => c.setSurf i { c.surf i with count := v }
  | .surfTag i   => c.setSurf i { c.surf i with tag := Tag.ofBit (v.getLsbD 0) }
  | .cmd         => c
  | .status      => c
  | .irqEn       => c
  | .errInfo     => c
  | .reserved    => c

/-- A host write to a register (rules R23 to R27, R40). A write to any register but STATUS and IRQ_EN is dropped while
BUSY and sets WBUSY; a reserved offset is no register and its writes have no effect. Log entry 8 for ERR_INFO. -/
def State.writeReg (reg : Reg) (v : Word) (s : State) : State :=
  match reg with
  | .status   => s.acknowledge v
  | .irqEn    => { s with doneIe := v.getLsbD 0 }
  | .reserved => s
  | .cmd      => if s.busy then { s with wbusy := true } else s.startCommand v
  | .errInfo  => if s.busy then { s with wbusy := true } else s
  | r         => if s.busy then { s with wbusy := true } else { s with regs := s.regs.write r v }

/-! ### Buffer accesses -/

/-- The widths a host buffer access may have (rule R61). -/
def bufferWidthOk (width : Nat) : Bool := width == 1 || width == 2 || width == 4

/-- A host access of `width` bytes at `a` touches the pending command's footprint (rule R221). -/
def State.races (s : State) (a width : Nat) : Bool := (List.range width).any fun i => s.inFootprint (a + i)

/-- What a host read of one byte returns: the byte, or a draw where the pending command's footprint is touched (rule
R221). -/
def State.hostByte (s : State) (a i : Nat) : Byte :=
  if s.inFootprint (a + i) then Config.freeByte (s.draws + i) else s.mem.readByte (a + i)

/-- A host read of the buffer memory, little-endian; it changes no buffer byte (rules R61, R68, R221). -/
def State.hostRead (a width : Nat) (s : State) : State :=
  { s with
    readData := some (wordOfBytes ((List.range width).map (s.hostByte a)))
    race := s.race || s.races a width
    draws := if s.races a width then s.draws + width else s.draws }

/-- A host write of the buffer memory, little-endian (rule R61). Where it touches the pending command's footprint, the
race mark is set and the whole footprint becomes unspecified (rules R35, R221, log entry 9). -/
def State.hostWrite (a width : Nat) (v : Word) (s : State) : State :=
  let t := { s with mem := s.mem.writeBytes a (bytesOfWord v width) }
  match s.pending with
  | none => t
  | some p => if s.races a width then { t.scrambleAll p.footprint with race := true } else t

/-! ### The reset input -/

/-- The host asserts the reset input: the registers take their reset values, a pending command is dropped and its write
extent becomes unspecified (rules R210, R212, log entry 7). -/
def State.assertReset (s : State) : State :=
  { (s.scrambleAll ((s.pending.map Pending.writes).getD [])).resetRegisters with resetAsserted := true }

/-! ### One host step -/

/-- One host step (rule R73). -/
def hostMove (op : HostOp) (s : State) : Host.Outcome State Fault Refusal :=
  match op with
  | .regWrite off width v =>
    if regAccessOk off width then .next (s.writeReg (Reg.ofIndex (off / 4)) v) else .refused .registerAccess
  | .regRead off width =>
    if regAccessOk off width then .next { s with readData := some (s.readReg (Reg.ofIndex (off / 4))) }
    else .refused .registerAccess
  | .memWrite a width v =>
    if !bufferWidthOk width then .refused .bufferWidth
    else if s.params.memBytes < a + width then .refused .bufferAddress
    else .next (s.hostWrite a width v)
  | .memRead a width =>
    if !bufferWidthOk width then .refused .bufferWidth
    else if s.params.memBytes < a + width then .refused .bufferAddress
    else .next (s.hostRead a width)
  | .resetLine asserted => .next (if asserted then s.assertReset else { s with resetAsserted := false })

/-! ### The host's operations in the spec's own terms (rule R87) -/

/-- `wr REG, v`. -/
def hostWr (reg : Reg) (v : Word) : Event := .host (.regWrite reg.offset 4 v)

/-- `rd REG`. -/
def hostRd (reg : Reg) : Event := .host (.regRead reg.offset 4)

/-- `sb a, v`. -/
def hostSb (a : Nat) (v : Byte) : Event := .host (.memWrite a 1 (v.setWidth 32))

/-- `lb a`. -/
def hostLb (a : Nat) : Event := .host (.memRead a 1)

/-- `wait` where STATUS reads BUSY = 1 `polls` times before the completion and BUSY = 0 once after it. -/
def hostWait (polls : Nat) : List Event := List.replicate polls (hostRd .status) ++ [.engine, hostRd .status]

/-- `run <cmd>`: the CMD write, then `wait`. -/
def hostRun (i : Instr) (polls : Nat) : List Event := hostWr .cmd (encode i) :: hostWait polls

/-- `ack`: `wr STATUS, 0x6` clears DONE and WBUSY. -/
def hostAck : Event := hostWr .status 0x6

end Sys2Proof.Machine
end

