-- ==== Sys2Proof/Machine/Engine.lean ====
section
/-! DEFINITION. The block's one engine (60_exceptions.md rules R186, R187) and who moves next (20_memory.md rule R73). -/

namespace Sys2Proof.Machine

/-- The completion of a command whose word decodes to ILLEGAL (rules R84, R181, R185). -/
def completeIllegal (s : State) : Host.Outcome State Fault Refusal := .next (s.complete (.fail .illegalCommand))

/-- The engine's move: the completion step where it is enabled, that is while a command is pending and no reset is
asserted (rule R186); otherwise the block is idle and all state survives (rule R199). -/
def engineMove (s : State) : Host.Outcome State Fault Refusal :=
  match s.resetAsserted, s.pending with
  | false, some p =>
    match decode p.word with
    | some i => exec i s
    | none => completeIllegal s
  | _, _ => .next s

/-- The next move of the interleaving: the schedule's first, or the engine's where the schedule is empty (rules R73, R187,
log entry 5). -/
def nextMove (s : State) : Host.Outcome State Fault Refusal :=
  match s.schedule with
  | [] => engineMove s
  | .engine :: rest => engineMove { s with schedule := rest }
  | .host op :: rest => hostMove op { s with schedule := rest }

/-- Placing a command word where the engine takes its next command: the host's CMD write has started it, the reset input
is released and the engine moves next (rules R40, R186, log entry 12). -/
def placeCommand (w : Word) (s : State) : State :=
  { s.startCommand w with resetAsserted := false, schedule := .engine :: s.schedule }

end Sys2Proof.Machine
end

