-- ==== Sys2Proof/Machine/Step.lean ====
section
/-! DEFINITION. One step of the machine, and how the host places a command for the next step. -/

namespace Sys2Proof.Machine

/-- One step: one move of the interleaving of host and engine (20_memory.md rule R73). -/
def step (s : State) : Host.Outcome State Fault Refusal := nextMove s

/-- The state in which the very next step performs the command word `w` (30_encoding.md rule R81: every command is one
32-bit word, so `nbits` plays no part). -/
def State.withFetchWord (s : State) (_nbits w : Nat) : State := placeCommand (BitVec.ofNat 32 w) s

end Sys2Proof.Machine
end

