-- ==== Sys2Proof/Safety.lean ====
section
/-! DEFINITION. What the statements speak in: the invariant of the machine, the register programmings the commands accept,
written from the rules in plain arithmetic, and what a completed command must have left in memory. -/

namespace Sys2Proof

open Machine

/-- The invariant of the machine: the memory keeps its canonical form inside MEM_BYTES, MEM_BYTES is in its range (rule
R8), a pending command's word and register copy are the live ones (rules R25, R41), DONE, ERR and ERR_INFO stay cleared
while a command is pending (rule R40), and ERR_INFO is 0 unless ERR is INDEX_OUT_OF_RANGE (rule R183). -/
structure Machine.State.Inv (s : State) : Prop where
  memRising    : s.mem.wf
  memInside    : s.mem.inside s.params.memBytes
  paramsLegal  : s.params.legal
  snapshotLive : ∀ p, s.pending = some p → p.word = s.cmd ∧ p.snap = s.regs
  startCleared : s.busy = true → s.done = false ∧ s.err = .ok ∧ s.errInfo = 0
  infoOnIndex  : s.err ≠ .indexOutOfRange → s.errInfo = 0

/-- A run that stayed inside the spec: the race mark is clear (rule R35). -/
def Machine.State.Safe (s : State) : Prop := s.race = false

/-- The engine makes the next move: the schedule is empty or begins with it (rule R73). -/
def Machine.State.EngineNext (s : State) : Prop := s.schedule = [] ∨ ∃ rest, s.schedule = .engine :: rest

/-- The word is one of the reserved and illegal encodings, in numbers: OP, S, D, R and RSV are the fields of rule R81
(rules R85, R181). -/
def IllegalWord (w : Word) : Prop :=
  let op := w.toNat % 16
  let s := w.toNat / 16 % 4
  let d := w.toNat / 64 % 4
  let r := w.toNat / 256 % 2
  let rsv := w.toNat / 512
  (op = 0 ∨ 5 ≤ op) ∨ rsv ≠ 0 ∨ (op = 3 ∧ (d ≠ 0 ∨ r ≠ 0)) ∨ (op = 4 ∧ (s ≠ 0 ∨ d ≠ 0 ∨ r ≠ 0))

/-- A register's offset is one that rule R23 reserves. -/
def ReservedOffset (off : Nat) : Prop :=
  (0x02C ≤ off ∧ off ≤ 0x03F) ∨ off = 0x04C ∨ off = 0x05C ∨ off = 0x06C ∨ off = 0x07C

/-- The extents `[a, a+l)` and `[b, b+m)` share an address (rule R72). -/
def Overlap (a l b m : Nat) : Prop := 0 < l ∧ 0 < m ∧ a < b + m ∧ b < a + l

/-- The extent `[a, a+l)` is in bounds (rule R71). -/
def InBounds (a l memBytes : Nat) : Prop := l = 0 ∨ a + l ≤ memBytes

/-! ### The converter -/

/-- Some argument check of rule R111 fails. -/
def CscBadArgument (src dst : SurfNum) (range : Bool) (c : ConfigRegs) : Prop :=
  (range = false ∧ (c.surf src).count ≠ (c.surf dst).count)
  ∨ (range = true ∧ (c.surf src).count.toNat < c.rangeFirst.toNat + c.rangeCount.toNat)
  ∨ (range = true ∧ (c.surf dst).count.toNat < c.rangeFirst.toNat + c.rangeCount.toNat)
  ∨ (src ≠ dst ∧ (c.surf src).base ≠ (c.surf dst).base
      ∧ Overlap (c.surf src).base.toNat (3 * (c.surf src).count.toNat)
          (c.surf dst).base.toNat (3 * (c.surf dst).count.toNat))

/-- Both whole surfaces lie in the buffer memory (rule R112). -/
def CscInBounds (src dst : SurfNum) (c : ConfigRegs) (memBytes : Nat) : Prop :=
  InBounds (c.surf src).base.toNat (3 * (c.surf src).count.toNat) memBytes
  ∧ InBounds (c.surf dst).base.toNat (3 * (c.surf dst).count.toNat) memBytes

/-- The registers describe well-formed buffers: equal counts, or a range inside both surfaces; identical or disjoint
surfaces; in-bounds extents (rule R115). -/
def CscWellFormed (src dst : SurfNum) (range : Bool) (c : ConfigRegs) (memBytes : Nat) : Prop :=
  (range = false → (c.surf src).count = (c.surf dst).count)
  ∧ (range = true → c.rangeFirst.toNat + c.rangeCount.toNat ≤ (c.surf src).count.toNat
      ∧ c.rangeFirst.toNat + c.rangeCount.toNat ≤ (c.surf dst).count.toNat)
  ∧ (src = dst ∨ (c.surf src).base = (c.surf dst).base
      ∨ ¬ Overlap (c.surf src).base.toNat (3 * (c.surf src).count.toNat)
          (c.surf dst).base.toNat (3 * (c.surf dst).count.toNat))
  ∧ CscInBounds src dst c memBytes

/-- The values rule R108 admits for an output channel of reference value `ref` and range `[lo, hi]`. -/
def ChannelAdmits (arith : CscArith) (lo hi ref v : Int) : Prop :=
  lo ≤ v ∧ v ≤ hi ∧ (v - ref).natAbs ≤ 1 ∧ (arith = .exact → v = ref)

/-- The three bytes of `m` at `da` are an admitted CHROMA pixel of the COLOR pixel of `m0` at `sa` (rules R62, R63, R102,
R108, R120). -/
def FwdConverted (p : Params) (m0 m : Memory) (sa da : Nat) : Prop :=
  let ref := fwd p.roundTies (m0.readByte (sa + 2)).toNat (m0.readByte (sa + 1)).toNat (m0.readByte sa).toNat
  ChannelAdmits p.cscArith 0 255 ref.y (m.readByte da).toNat
  ∧ ChannelAdmits p.cscArith (-128) 127 ref.cb (m.readByte (da + 1)).toInt
  ∧ ChannelAdmits p.cscArith (-128) 127 ref.cr (m.readByte (da + 2)).toInt

/-- The three bytes of `m` at `da` are an admitted COLOR pixel of the CHROMA pixel of `m0` at `sa` (rules R62, R63, R106,
R108, R125). -/
def InvConverted (p : Params) (m0 m : Memory) (sa da : Nat) : Prop :=
  let ref := inv (m0.readByte sa).toNat (m0.readByte (sa + 1)).toInt (m0.readByte (sa + 2)).toInt
  ChannelAdmits p.cscArith 0 255 ref.b (m.readByte da).toNat
  ∧ ChannelAdmits p.cscArith 0 255 ref.g (m.readByte (da + 1)).toNat
  ∧ ChannelAdmits p.cscArith 0 255 ref.r (m.readByte (da + 2)).toNat

/-- The memory after the conversion of the one pixel `first + i`, read from the memory `m` as it is then and written back
to it: one unit of the per-pixel work of rule R114. -/
def convertOne (pixel : Params → Nat → Byte → Byte → Byte → List Byte) (p : Params) (draws sb db first : Nat)
    (m : Memory) (i : Nat) : Memory :=
  m.writeBytes (db + 3 * (first + i))
    (pixel p (draws + 3 * i) (m.readByte (sb + 3 * (first + i))) (m.readByte (sb + 3 * (first + i) + 1))
      (m.readByte (sb + 3 * (first + i) + 2)))

/-- The state with another tag on surface `j`, in the live registers and in a pending command's copy of them. -/
def Machine.State.retag (s : State) (j : SurfNum) (x : Tag) : State :=
  { s with
    regs := s.regs.setTag j x
    pending := s.pending.map fun p => { p with snap := p.snap.setTag j x } }

/-! ### The packer -/

/-- The code of the first of rule R150's checks 1, 3, 4 and 6 that holds, for UNPACK; `none` when none does. -/
def UnpackCheck (c : ConfigRegs) (memBytes : Nat) (e : Option ErrCode) : Prop :=
  let badK := c.kNat = 0 ∨ 256 < c.kNat
  let clash := Overlap c.outBase.toNat c.outSize.toNat c.idxBase.toNat c.npix
  let fits := InBounds c.outBase.toNat c.outSize.toNat memBytes ∧ InBounds c.idxBase.toNat c.npix memBytes
  let sized := c.outSize.toNat = packedSize c.kNat c.npix
  (badK → e = some .invalidArgument)
  ∧ (¬ badK → clash → e = some .invalidArgument)
  ∧ (¬ badK → ¬ clash → ¬ fits → e = some .outOfBounds)
  ∧ (¬ badK → ¬ clash → fits → ¬ sized → e = some .sizeMismatch)
  ∧ (¬ badK → ¬ clash → fits → sized → e = none)

/-- The code of the first of rule R150's checks 1 to 6 that holds, for PACK; `none` when none does. -/
def PackCheck (pal : SurfNum) (c : ConfigRegs) (memBytes : Nat) (e : Option ErrCode) : Prop :=
  let badK := c.kNat = 0 ∨ 256 < c.kNat
  let counted := (c.surf pal).count.toNat = c.kNat
  let clash := Overlap c.outBase.toNat c.outSize.toNat c.idxBase.toNat c.npix
    ∨ Overlap c.outBase.toNat c.outSize.toNat (c.surf pal).base.toNat (3 * c.kNat)
  let fits := InBounds c.outBase.toNat c.outSize.toNat memBytes ∧ InBounds c.idxBase.toNat c.npix memBytes
    ∧ InBounds (c.surf pal).base.toNat (3 * c.kNat) memBytes
  let colored := (c.surf pal).tag = .color
  let sized := c.outSize.toNat = packedSize c.kNat c.npix
  (badK → e = some .invalidArgument)
  ∧ (¬ badK → ¬ counted → e = some .invalidArgument)
  ∧ (¬ badK → counted → clash → e = some .invalidArgument)
  ∧ (¬ badK → counted → ¬ clash → ¬ fits → e = some .outOfBounds)
  ∧ (¬ badK → counted → ¬ clash → fits → ¬ colored → e = some .wrongDomain)
  ∧ (¬ badK → counted → ¬ clash → fits → colored → ¬ sized → e = some .sizeMismatch)
  ∧ (¬ badK → counted → ¬ clash → fits → colored → sized → e = none)

/-- The registers pass PACK's checks 1 to 6 (rule R150). -/
def PackWellFormed (pal : SurfNum) (c : ConfigRegs) (memBytes : Nat) : Prop :=
  (1 ≤ c.kNat ∧ c.kNat ≤ 256) ∧ (c.surf pal).count.toNat = c.kNat
  ∧ ¬ Overlap c.outBase.toNat c.outSize.toNat c.idxBase.toNat c.npix
  ∧ ¬ Overlap c.outBase.toNat c.outSize.toNat (c.surf pal).base.toNat (3 * c.kNat)
  ∧ InBounds c.outBase.toNat c.outSize.toNat memBytes ∧ InBounds c.idxBase.toNat c.npix memBytes
  ∧ InBounds (c.surf pal).base.toNat (3 * c.kNat) memBytes
  ∧ (c.surf pal).tag = .color ∧ c.outSize.toNat = packedSize c.kNat c.npix

/-- The registers pass UNPACK's checks 1, 3, 4 and 6 (rules R150, R160). -/
def UnpackWellFormed (c : ConfigRegs) (memBytes : Nat) : Prop :=
  (1 ≤ c.kNat ∧ c.kNat ≤ 256)
  ∧ ¬ Overlap c.outBase.toNat c.outSize.toNat c.idxBase.toNat c.npix
  ∧ InBounds c.outBase.toNat c.outSize.toNat memBytes ∧ InBounds c.idxBase.toNat c.npix memBytes
  ∧ c.outSize.toNat = packedSize c.kNat c.npix

/-- The number PACK reads as the index of pixel `p` (rule R64). -/
def storedIndex (c : ConfigRegs) (m : Memory) (p : Nat) : Nat := (m.readByte (c.idxBase.toNat + p)).toNat

/-- Stream bit `q` of the index section of the packed buffer (rules R66, R144). -/
def streamBit (c : ConfigRegs) (m : Memory) (q : Nat) : Bool :=
  (m.readByte (c.outBase.toNat + 2 * c.kNat + q / 8)).getLsbD (q % 8)

/-- The number UNPACK decodes as the index of pixel `p`: its bit `j` is stream bit `p · bpp + j` (rules R144, R160). -/
def streamIndex (c : ConfigRegs) (m : Memory) (p : Nat) : Nat :=
  ((List.range (bpp c.kNat)).map fun j => if streamBit c m (p * bpp c.kNat + j) then 2 ^ j else 0).sum

/-- `p` is the least pixel whose index is `k` or more (rule R183). -/
def LeastBadPixel (c : ConfigRegs) (index : Nat → Nat) (p : Nat) : Prop :=
  p < c.npix ∧ c.kNat ≤ index p ∧ ∀ q, q < p → index q < c.kNat

/-! ### Completion -/

/-- What every completion leaves as it was, and the fields it always writes: BUSY 0 and DONE 1 (rules R24, R186). -/
structure CompletionFrame (s t : State) : Prop where
  params        : t.params = s.params
  cmd           : t.cmd = s.cmd
  wbusy         : t.wbusy = s.wbusy
  doneIe        : t.doneIe = s.doneIe
  race          : t.race = s.race
  resetAsserted : t.resetAsserted = s.resetAsserted
  schedule      : t.schedule = s.schedule
  readData      : t.readData = s.readData
  pendingGone   : t.pending = none
  doneSet       : t.done = true

/-- Every buffer byte outside `[a, a+len)` reads as before. -/
def OnlyWithin (m0 m : Memory) (a len : Nat) : Prop :=
  ∀ x, ¬ (a ≤ x ∧ x < a + len) → m.readByte x = m0.readByte x

end Sys2Proof
end

