-- ==== Sys2Proof/Certificates/Slice0/Obligations.lean ====
section
/-! DEFINITION. The statements about the machine that are put to the provers. Each docstring names the rules of the spec it
formalises, and says where a clause is the model's own. -/

open Sys2Proof Sys2Proof.Machine

/-! ### Encoding -/

/-- Words written out from the spec's encodings decode to the commands they stand for (rules R81 to R84). -/
def Obligations.SampleCommandWordsDecode : Prop :=
  decode 0x00000041#32 = some (.cscFwd 0 1 false)
  ∧ decode 0x000001E1#32 = some (.cscFwd 2 3 true)
  ∧ decode 0x00000052#32 = some (.cscInv 1 1 false)
  ∧ decode 0x00000102#32 = some (.cscInv 0 0 true)
  ∧ decode 0x00000033#32 = some (.pack 3)
  ∧ decode 0x00000004#32 = some .unpack
  ∧ decode 0xFFFFFFFF#32 = none
  ∧ decode 0x00000104#32 = none

/-- Decoding and encoding agree in both directions: every command is well formed and its word decodes to it, and a word
that decodes to a command is that command's word (rules R82, R84). -/
def Obligations.DecodeInvertsEncode : Prop :=
  (∀ i : Instr, i.wellFormed = true ∧ decode (encode i) = some i)
  ∧ (∀ (w : Word) (i : Instr), decode w = some i → encode i = w)

/-- Rule R84 in numbers, on every 32-bit word: which words decode to which command and which to ILLEGAL, and an ILLEGAL word
written to CMD starts a command that completes with ILLEGAL_COMMAND. -/
def Obligations.DecodeFollowsTheFieldTable : Prop :=
  ∀ w : Word,
    let op := w.toNat % 16
    let s := w.toNat / 16 % 4
    let d := w.toNat / 64 % 4
    let r := w.toNat / 256 % 2
    let rsv := w.toNat / 512
    (rsv ≠ 0 → decode w = none)
    ∧ (∀ src dst : SurfNum, rsv = 0 → op = 1 → src.val = s → dst.val = d →
        decode w = some (.cscFwd src dst (decide (r = 1))))
    ∧ (∀ src dst : SurfNum, rsv = 0 → op = 2 → src.val = s → dst.val = d →
        decode w = some (.cscInv src dst (decide (r = 1))))
    ∧ (∀ pal : SurfNum, rsv = 0 → op = 3 → d = 0 → r = 0 → pal.val = s → decode w = some (.pack pal))
    ∧ (op = 3 → d ≠ 0 ∨ r ≠ 0 → decode w = none)
    ∧ (rsv = 0 → op = 4 → s = 0 → d = 0 → r = 0 → decode w = some .unpack)
    ∧ (op = 4 → s ≠ 0 ∨ d ≠ 0 ∨ r ≠ 0 → decode w = none)
    ∧ (op = 0 ∨ 5 ≤ op → decode w = none)
    ∧ (∀ (st : State) (rest : List Event), decode w = none → st.busy = false → st.resetAsserted = false →
        st.schedule = hostWr .cmd w :: .engine :: rest →
        ∃ t u, step st = .next t ∧ t.pending = some ⟨w, st.regs⟩
          ∧ step t = .next u ∧ u.err = .illegalCommand ∧ u.busy = false ∧ u.done = true)

/-- Rules R85 and R181: the pending command completes with ILLEGAL_COMMAND exactly when its word is a reserved or illegal
encoding, and then changes no buffer byte, no tag and nothing else but STATUS; CMD keeps the word. -/
def Obligations.IllegalWordsCompleteWithIllegalCommand : Prop :=
  ∀ (s : State) (p : Pending), s.pending = some p → s.resetAsserted = false → s.EngineNext →
    ∃ t, step s = .next t
      ∧ (t.err = .illegalCommand ↔ IllegalWord p.word)
      ∧ (IllegalWord p.word → t.mem = s.mem ∧ t.regs = s.regs ∧ t.errInfo = s.errInfo
          ∧ t.draws = s.draws ∧ t.statusWord.extractLsb' 4 4 = 5#4)
      ∧ t.busy = false ∧ CompletionFrame { s with schedule := s.schedule.tail } t

/-- Rule R86: each assembler form, the in-place pseudo-instructions among them, has the word of the command it names. -/
def Obligations.AssemblerFormsEncodeTheirCommands : Prop :=
  ∀ a : Asm, a.word = encode a.instr ∧ decode a.word = some a.instr

/-! ### The converter's arithmetic -/

/-- Rule R103: under either tie mode the rounded value is the nearest integer; AWAY is `sign(q) · floor(|q| + 1/2)`, and
under EVEN an exact .5 goes to the even neighbour. -/
def Obligations.RoundNearestIsNearest : Prop :=
  ∀ n : Int,
    roundNearest .away n 10000 = n.sign * ⌊|(n : ℚ) / 10000| + 1 / 2⌋
    ∧ (∀ ties, 2 * (10000 * roundNearest ties n 10000 - n).natAbs ≤ 10000)
    ∧ (2 * (10000 * roundNearest .even n 10000 - n).natAbs = 10000 → roundNearest .even n 10000 % 2 = 0)

/-- Rules R102 and R104: Y needs no saturation; Cb and Cr round into [−128, 128], reach 128 at one input each, and are
saturated to 127 there. -/
def Obligations.ForwardNarrowingSaturatesTwoInputs : Prop :=
  ∀ (ties : RoundTies) (r g b : Int), 0 ≤ r → r ≤ 255 → 0 ≤ g → g ≤ 255 → 0 ≤ b → b ≤ 255 →
    0 ≤ numY r g b ∧ numY r g b ≤ 2550000
    ∧ (fwd ties r g b).y = roundNearest ties (numY r g b) 10000
    ∧ -128 ≤ roundNearest ties (numCb r g b) 10000 ∧ roundNearest ties (numCb r g b) 10000 ≤ 128
    ∧ -128 ≤ roundNearest ties (numCr r g b) 10000 ∧ roundNearest ties (numCr r g b) 10000 ≤ 128
    ∧ (roundNearest ties (numCb r g b) 10000 = 128 ↔ r = 0 ∧ g = 0 ∧ b = 255)
    ∧ (roundNearest ties (numCr r g b) 10000 = 128 ↔ r = 255 ∧ g = 0 ∧ b = 0)
    ∧ (fwd ties r g b).cb = min (roundNearest ties (numCb r g b) 10000) 127
    ∧ (fwd ties r g b).cr = min (roundNearest ties (numCr r g b) 10000) 127

/-- The round-trip bound of rule R109 under EXACT, with either tie mode: `inv(fwd(r, g, b))` differs from the original by at
most 2 per channel, for every colour. -/
def Obligations.RoundTripWithinTwoPerChannel : Prop :=
  ∀ (ties : RoundTies) (r g b : Int), 0 ≤ r → r ≤ 255 → 0 ≤ g → g ≤ 255 → 0 ≤ b → b ≤ 255 →
    let c := fwd ties r g b
    let x := inv c.y c.cb c.cr
    (x.r - r).natAbs ≤ 2 ∧ (x.g - g).natAbs ≤ 2 ∧ (x.b - b).natAbs ≤ 2

/-- Rule R107: after saturation, truncation toward zero and floor agree; they differ only below 0, where both saturate to
0. The channels of `inv` are therefore the saturated floors of rule R106's numerators. -/
def Obligations.SaturatedTruncationIsSaturatedFloor : Prop :=
  (∀ n : Int, sat (n.tdiv 10000) 0 255 = sat (n / 10000) 0 255
    ∧ (n.tdiv 10000 ≠ n / 10000 → n < 0 ∧ sat (n.tdiv 10000) 0 255 = 0))
  ∧ (∀ y cb cr : Int,
      (inv y cb cr).r = sat ((10000 * y + 15748 * cr) / 10000) 0 255
      ∧ (inv y cb cr).g = sat ((10000 * y - 1873 * cb - 4681 * cr) / 10000) 0 255
      ∧ (inv y cb cr).b = sat ((10000 * y + 18556 * cb) / 10000) 0 255)

/-- Rule R108 for one channel: EXACT gives the reference value; TOLERANT gives a value within 1 of it and inside the
channel's range, and every such value for some drawn number. -/
def Obligations.TolerantChannelsAreAnyValueWithinOne : Prop :=
  ∀ lo hi ref : Int, lo ≤ ref → ref ≤ hi →
    (∀ draw, channel .exact lo hi ref draw = ref)
    ∧ (∀ draw, ChannelAdmits .tolerant lo hi ref (channel .tolerant lo hi ref draw))
    ∧ (∀ draw, channel .tolerant lo hi ref draw = nudge lo hi ref (Config.freeChoice draw))
    ∧ (∀ v, ChannelAdmits .tolerant lo hi ref v → ∃ drawn, nudge lo hi ref drawn = v)

/-! ### CSC_FWD and CSC_INV -/

/-- CSC_FWD on well-formed registers (rules R110, R115, R120): it completes with OK, every pixel of the range is an admitted
CHROMA pixel of the COLOR pixel that stood in the source, every other byte is as before, and of the registers only the
destination's tag changes. -/
def Obligations.CscFwdConvertsItsRange : Prop :=
  ∀ (src dst : SurfNum) (range : Bool) (s : State),
    CscWellFormed src dst range s.operands s.params.memBytes →
    ∃ t, exec (.cscFwd src dst range) s = .next t
      ∧ (let c := s.operands
         let first := if range = true then c.rangeFirst.toNat else 0
         let n := if range = true then c.rangeCount.toNat else (c.surf src).count.toNat
         (∀ p, first ≤ p → p < first + n →
            FwdConverted s.params s.mem t.mem ((c.surf src).base.toNat + 3 * p) ((c.surf dst).base.toNat + 3 * p))
         ∧ OnlyWithin s.mem t.mem ((c.surf dst).base.toNat + 3 * first) (3 * n))
      ∧ t.regs = s.regs.setTag dst .chroma ∧ t.err = .ok ∧ t.errInfo = s.errInfo ∧ CompletionFrame s t

/-- CSC_INV on well-formed registers (rules R110, R115, R125): as `CscFwdConvertsItsRange`, from CHROMA to COLOR. -/
def Obligations.CscInvConvertsItsRange : Prop :=
  ∀ (src dst : SurfNum) (range : Bool) (s : State),
    CscWellFormed src dst range s.operands s.params.memBytes →
    ∃ t, exec (.cscInv src dst range) s = .next t
      ∧ (let c := s.operands
         let first := if range = true then c.rangeFirst.toNat else 0
         let n := if range = true then c.rangeCount.toNat else (c.surf src).count.toNat
         (∀ p, first ≤ p → p < first + n →
            InvConverted s.params s.mem t.mem ((c.surf src).base.toNat + 3 * p) ((c.surf dst).base.toNat + 3 * p))
         ∧ OnlyWithin s.mem t.mem ((c.surf dst).base.toNat + 3 * first) (3 * n))
      ∧ t.regs = s.regs.setTag dst .color ∧ t.err = .ok ∧ t.errInfo = s.errInfo ∧ CompletionFrame s t

/-- Rule R114: converting the pixels of the range one after another, in any order, each read from the memory as the work so
far has left it, gives what the completion step gives, which reads every pixel from the memory as it was; and bytes outside
the range are unchanged. -/
def Obligations.ConversionOrderDoesNotMatter : Prop :=
  ∀ (src dst : SurfNum) (range : Bool) (s : State),
    CscWellFormed src dst range s.operands s.params.memBytes →
    let sb := (s.operands.surf src).base.toNat
    let db := (s.operands.surf dst).base.toNat
    let first := cscFirst range s.operands
    let n := cscCount src range s.operands
    (∃ t, exec (.cscFwd src dst range) s = .next t ∧ OnlyWithin s.mem t.mem (db + 3 * first) (3 * n)
      ∧ ∀ order : List Nat, order.Perm (List.range n) → ∀ a,
          (order.foldl (convertOne fwdPixel s.params s.draws sb db first) s.mem).readByte a = t.mem.readByte a)
    ∧ (∃ t, exec (.cscInv src dst range) s = .next t ∧ OnlyWithin s.mem t.mem (db + 3 * first) (3 * n)
      ∧ ∀ order : List Nat, order.Perm (List.range n) → ∀ a,
          (order.foldl (convertOne invPixel s.params s.draws sb db first) s.mem).readByte a = t.mem.readByte a)

/-- Rules R111, R112 and R115, and rule R184's order for the two CSC commands: a failed argument check gives
INVALID_ARGUMENT; otherwise a surface out of bounds gives OUT_OF_BOUNDS; otherwise, that is exactly on well-formed registers,
the code is OK. A failed command changes no buffer byte and no register but STATUS. -/
def Obligations.CscReportsTheFirstFailedCheck : Prop :=
  ∀ (src dst : SurfNum) (range : Bool) (i : Instr) (s : State),
    i = .cscFwd src dst range ∨ i = .cscInv src dst range →
    ∃ t, exec i s = .next t
      ∧ (CscBadArgument src dst range s.operands → t.err = .invalidArgument)
      ∧ (¬ CscBadArgument src dst range s.operands → ¬ CscInBounds src dst s.operands s.params.memBytes →
          t.err = .outOfBounds)
      ∧ (t.err = .ok ↔ CscWellFormed src dst range s.operands s.params.memBytes)
      ∧ (t.err ≠ .ok → t.mem = s.mem ∧ t.regs = s.regs ∧ t.errInfo = s.errInfo)
      ∧ CompletionFrame s t

/-- Rule R113: a CSC command reads no tag. With another tag on any surface it writes the same bytes, reports the same code
and leaves the same tag on its destination. -/
def Obligations.ConvertersReadNoTag : Prop :=
  ∀ (src dst : SurfNum) (range : Bool) (i : Instr) (s : State) (j : SurfNum) (x : Tag),
    i = .cscFwd src dst range ∨ i = .cscInv src dst range →
    ∃ t t', exec i s = .next t ∧ exec i (s.retag j x) = .next t'
      ∧ t'.mem = t.mem ∧ t'.err = t.err ∧ t'.errInfo = t.errInfo
      ∧ (t.err = .ok → (t'.regs.surf dst).tag = (t.regs.surf dst).tag)

/-! ### The packed format -/

/-- Rule R140: `bpp(k)` is the least `b` with `2^b ≥ k`, it is the bit length of `k − 1`, and it has the values of the rule's
table over the legal range. -/
def Obligations.BitsPerPixelIsTheLeastExponent : Prop :=
  ∀ k : Nat, 1 ≤ k →
    k ≤ 2 ^ bpp k ∧ (∀ b, k ≤ 2 ^ b → bpp k ≤ b) ∧ bpp k = Nat.size (k - 1)
    ∧ (k = 1 → bpp k = 0) ∧ (k = 2 → bpp k = 1) ∧ (3 ≤ k → k ≤ 4 → bpp k = 2) ∧ (5 ≤ k → k ≤ 8 → bpp k = 3)
    ∧ (9 ≤ k → k ≤ 16 → bpp k = 4) ∧ (17 ≤ k → k ≤ 32 → bpp k = 5) ∧ (33 ≤ k → k ≤ 64 → bpp k = 6)
    ∧ (65 ≤ k → k ≤ 128 → bpp k = 7) ∧ (129 ≤ k → k ≤ 256 → bpp k = 8)

/-- Rules R141 and R146: the packed size, and the empty index section when `k = 1` or there is no pixel. -/
def Obligations.PackedSizeAndTheEmptyIndexSection : Prop :=
  ∀ k npix : Nat, 1 ≤ k →
    packedSize k npix = 2 * k + (npix * bpp k + 7) / 8
    ∧ (bpp k = 0 ↔ k = 1)
    ∧ (bpp k = 0 ∨ npix = 0 → packedSize k npix = 2 * k ∧ ∀ m idx, indexBytes m idx (bpp k) npix = [])

/-- Rule R142: `bits[15:11] = R>>3`, `bits[10:5] = G>>2`, `bits[4:0] = B>>3`, the low bits dropped with no rounding. -/
def Obligations.Rgb565DropsTheLowBits : Prop :=
  ∀ b g r : Byte,
    (rgb565 b g r).toNat = (r.toNat / 8) * 2048 + (g.toNat / 4) * 32 + b.toNat / 8
    ∧ (rgb565 b g r).extractLsb' 11 5 = r.extractLsb' 3 5
    ∧ (rgb565 b g r).extractLsb' 5 6 = g.extractLsb' 2 6
    ∧ (rgb565 b g r).extractLsb' 0 5 = b.extractLsb' 3 5

/-! ### PACK and UNPACK -/

/-- PACK on well-formed registers and indices below `k` (rules R143, R144, R145, R155): it completes with OK and the packed
buffer holds `k` little-endian RGB565 words, then every index's bits LSB-first, then 0 bits to the end of its last byte; its
size is exactly the packed size, and nothing else in the buffer and no configuration register changes. That bit `j` of an
index goes to stream bit `p·bpp + j` is the spec's own reading, not its source's: R144 says of it: That is this spec's
reading of "LSB-first" (92_eei_decisions.md D20). -/
def Obligations.PackWritesThePackedImage : Prop :=
  ∀ (pal : SurfNum) (s : State),
    let c := s.operands
    let w := bpp c.kNat
    PackWellFormed pal c s.params.memBytes →
    (∀ p, p < c.npix → storedIndex c s.mem p < c.kNat) →
    ∃ t, exec (.pack pal) s = .next t
      ∧ (∀ i, i < c.kNat →
          let a := (c.surf pal).base.toNat + 3 * i
          let v := rgb565 (s.mem.readByte a) (s.mem.readByte (a + 1)) (s.mem.readByte (a + 2))
          t.mem.readByte (c.outBase.toNat + 2 * i) = v.extractLsb' 0 8
          ∧ t.mem.readByte (c.outBase.toNat + 2 * i + 1) = v.extractLsb' 8 8)
      ∧ (∀ p j, p < c.npix → j < w →
          streamBit c t.mem (p * w + j) = (s.mem.readByte (c.idxBase.toNat + p)).getLsbD j)
      ∧ (∀ q, c.npix * w ≤ q → q < 8 * ceilDiv (c.npix * w) 8 → streamBit c t.mem q = false)
      ∧ c.outSize.toNat = 2 * c.kNat + ceilDiv (c.npix * w) 8
      ∧ OnlyWithin s.mem t.mem c.outBase.toNat c.outSize.toNat
      ∧ t.regs = s.regs ∧ t.err = .ok ∧ t.errInfo = s.errInfo ∧ CompletionFrame s t

/-- UNPACK on well-formed registers and decoded indices below `k` (rules R144, R160): it completes with OK, the index array
holds the decoded indices, and nothing else in the buffer and no configuration register changes. -/
def Obligations.UnpackWritesTheDecodedIndices : Prop :=
  ∀ s : State,
    let c := s.operands
    UnpackWellFormed c s.params.memBytes →
    (∀ p, p < c.npix → streamIndex c s.mem p < c.kNat) →
    ∃ t, exec .unpack s = .next t
      ∧ (∀ p, p < c.npix → (t.mem.readByte (c.idxBase.toNat + p)).toNat = streamIndex c s.mem p)
      ∧ OnlyWithin s.mem t.mem c.idxBase.toNat c.npix
      ∧ t.regs = s.regs ∧ t.err = .ok ∧ t.errInfo = s.errInfo ∧ CompletionFrame s t

/-- Rule R150: PACK and UNPACK report the first check that holds, in the rule's order; where none of the register checks
holds, INDEX_OUT_OF_RANGE exactly when some index is `k` or more, else OK. A register check that fails leaves the buffer and
every register but STATUS as they were. -/
def Obligations.PackerReportsTheFirstFailedCheck : Prop :=
  (∀ (pal : SurfNum) (s : State) (e : Option ErrCode),
    PackCheck pal s.operands s.params.memBytes e →
    ∃ t, exec (.pack pal) s = .next t ∧ CompletionFrame s t
      ∧ (∀ code, e = some code → t.err = code ∧ t.mem = s.mem ∧ t.regs = s.regs ∧ t.errInfo = s.errInfo)
      ∧ (e = none →
          (t.err = .indexOutOfRange ↔ ∃ p, p < s.operands.npix ∧ s.operands.kNat ≤ storedIndex s.operands s.mem p)
          ∧ (t.err = .ok ↔ ∀ p, p < s.operands.npix → storedIndex s.operands s.mem p < s.operands.kNat)))
  ∧ (∀ (s : State) (e : Option ErrCode),
    UnpackCheck s.operands s.params.memBytes e →
    ∃ t, exec .unpack s = .next t ∧ CompletionFrame s t
      ∧ (∀ code, e = some code → t.err = code ∧ t.mem = s.mem ∧ t.regs = s.regs ∧ t.errInfo = s.errInfo)
      ∧ (e = none →
          (t.err = .indexOutOfRange ↔ ∃ p, p < s.operands.npix ∧ s.operands.kNat ≤ streamIndex s.operands s.mem p)
          ∧ (t.err = .ok ↔ ∀ p, p < s.operands.npix → streamIndex s.operands s.mem p < s.operands.kNat)))

/-- Rule R183: ERR_INFO is 0 after a command's start, is written only on INDEX_OUT_OF_RANGE, and then is the least pixel whose
index is `k` or more: the stored index for PACK, the decoded one for UNPACK. -/
def Obligations.ErrInfoIsTheLeastBadPixel : Prop :=
  (∀ (s : State) (v : Word) (rest : List Event), s.busy = false → s.schedule = hostWr .cmd v :: rest →
    ∃ t, step s = .next t ∧ t.errInfo = 0)
  ∧ (∀ (i : Instr) (s : State), ∃ t, exec i s = .next t ∧ (t.err ≠ .indexOutOfRange → t.errInfo = s.errInfo))
  ∧ (∀ s : State, ∃ t, completeIllegal s = .next t ∧ t.errInfo = s.errInfo)
  ∧ (∀ (pal : SurfNum) (s t : State), exec (.pack pal) s = .next t → t.err = .indexOutOfRange →
      LeastBadPixel s.operands (storedIndex s.operands s.mem) t.errInfo.toNat)
  ∧ (∀ s t : State, exec .unpack s = .next t → t.err = .indexOutOfRange →
      LeastBadPixel s.operands (streamIndex s.operands s.mem) t.errInfo.toNat)

/-- A corner of rule R160: when `k` is a power of two, UNPACK never reports INDEX_OUT_OF_RANGE. -/
def Obligations.UnpackNeverReportsAnIndexOnPowersOfTwo : Prop :=
  ∀ (s : State) (b : Nat), s.operands.kNat = 2 ^ b → UnpackWellFormed s.operands s.params.memBytes →
    ∃ t, exec .unpack s = .next t ∧ t.err = .ok

/-- Rule R165: a PACK that completes with OK, followed by an UNPACK with the same K, DIM and OUT registers into an index array
disjoint from the packed buffer, gives back exactly the indices PACK read, and each palette word is the RGB565 word of its
palette pixel. -/
def Obligations.PackThenUnpackRestoresTheIndices : Prop :=
  ∀ (pal : SurfNum) (s t u : State),
    exec (.pack pal) s = .next t → t.err = .ok →
    u.mem = t.mem → u.params = s.params →
    u.operands.k = s.operands.k → u.operands.width = s.operands.width → u.operands.height = s.operands.height →
    u.operands.outBase = s.operands.outBase → u.operands.outSize = s.operands.outSize →
    ¬ Overlap u.operands.outBase.toNat u.operands.outSize.toNat u.operands.idxBase.toNat u.operands.npix →
    InBounds u.operands.idxBase.toNat u.operands.npix u.params.memBytes →
    ∃ v, exec .unpack u = .next v ∧ v.err = .ok
      ∧ (∀ p, p < s.operands.npix →
          v.mem.readByte (u.operands.idxBase.toNat + p) = s.mem.readByte (s.operands.idxBase.toNat + p))
      ∧ (∀ i, i < s.operands.kNat →
          let o := s.operands.outBase.toNat + 2 * i
          let a := (s.operands.surf pal).base.toNat + 3 * i
          v.mem.readByte (o + 1) ++ v.mem.readByte o
            = rgb565 (s.mem.readByte a) (s.mem.readByte (a + 1)) (s.mem.readByte (a + 2)))

/-- Corners of rule R160: UNPACK reads neither the palette section nor the padding bits. Two memories that agree on the index
section's stream bits give the same code and, where it is OK, the same indices. -/
def Obligations.UnpackReadsOnlyTheIndexBits : Prop :=
  ∀ s s' : State, s'.operands = s.operands → s'.params = s.params → s'.errInfo = s.errInfo →
    (∀ q, q < s.operands.npix * bpp s.operands.kNat →
      streamBit s.operands s'.mem q = streamBit s.operands s.mem q) →
    ∃ t t', exec .unpack s = .next t ∧ exec .unpack s' = .next t'
      ∧ t'.err = t.err ∧ t'.errInfo = t.errInfo
      ∧ (t.err = .ok → ∀ p, p < s.operands.npix →
          t'.mem.readByte (s.operands.idxBase.toNat + p) = t.mem.readByte (s.operands.idxBase.toNat + p))

/-! ### Completion -/

/-- The step runs the decoded command: with a command pending, no reset asserted and the engine next, the step is `exec` of
the command its word decodes to, in the state whose schedule has lost that move (rules R84, R186). The second clause, that
after `withFetchWord` the very next step runs the placed word's command, is the model's choice of how a command is placed
(log entry 12). -/
def Obligations.StepRunsTheDecodedCommand : Prop :=
  (∀ (s : State) (p : Pending) (i : Instr), s.pending = some p → s.resetAsserted = false → s.EngineNext →
    decode p.word = some i → step s = exec i { s with schedule := s.schedule.tail })
  ∧ (∀ (s : State) (nbits w : Nat) (i : Instr), decodeTableWord nbits w = some i →
      step (s.withFetchWord nbits w) = exec i { s.withFetchWord nbits w with schedule := s.schedule })

/-- Rule R186: the completion step is enabled exactly when BUSY = 1 and no reset is asserted. Then it ends the command, sets
DONE and leaves CMD, WBUSY, IRQ_EN and everything of the model's own but the schedule; otherwise the engine's move changes
nothing. -/
def Obligations.CompletionFiresExactlyWhenEnabled : Prop :=
  ∀ s : State, s.EngineNext →
    (s.busy = true → s.resetAsserted = false →
      ∃ t, step s = .next t ∧ t.busy = false ∧ CompletionFrame { s with schedule := s.schedule.tail } t)
    ∧ (s.busy = false ∨ s.resetAsserted = true → step s = .next { s with schedule := s.schedule.tail })

/-- What each command leaves unchanged: every buffer byte outside the extent rule R70 gives it to write, every register but
STATUS, ERR_INFO and a converter's destination tag, and everything of the model's own but the draws. -/
def Obligations.CommandsWriteOnlyTheirWriteExtent : Prop :=
  ∀ (i : Instr) (s : State), ∃ t, exec i s = .next t ∧ CompletionFrame s t
    ∧ OnlyWithin s.mem t.mem (writeExtent i s.operands).base (writeExtent i s.operands).len
    ∧ (t.err ≠ .indexOutOfRange → t.errInfo = s.errInfo)
    ∧ (∀ src dst range, i = .cscFwd src dst range →
        t.regs = if t.err = .ok then s.regs.setTag dst .chroma else s.regs)
    ∧ (∀ src dst range, i = .cscInv src dst range →
        t.regs = if t.err = .ok then s.regs.setTag dst .color else s.regs)
    ∧ (∀ pal, i = .pack pal → t.regs = s.regs)
    ∧ (i = .unpack → t.regs = s.regs)

/-- Rule R185: a failing command sets ERR and completes. For any code but INDEX_OUT_OF_RANGE no buffer byte and no tag
changes; on INDEX_OUT_OF_RANGE every byte of the write extent is a draw (the model's free value, log entry 2), and bytes
outside it and all tags are unchanged. -/
def Obligations.FailedCommandsChangeOnlyTheirWriteExtent : Prop :=
  (∀ (i : Instr) (s t : State), exec i s = .next t → t.err ≠ .ok →
    t.done = true ∧ t.busy = false ∧ t.regs = s.regs
    ∧ (t.err ≠ .indexOutOfRange → t.mem = s.mem)
    ∧ (t.err = .indexOutOfRange →
        (∀ j, j < (writeExtent i s.operands).len →
          t.mem.readByte ((writeExtent i s.operands).base + j) = Config.freeByte (s.draws + j))
        ∧ OnlyWithin s.mem t.mem (writeExtent i s.operands).base (writeExtent i s.operands).len
        ∧ t.draws = s.draws + (writeExtent i s.operands).len))
  ∧ (∀ s : State, ∃ t, completeIllegal s = .next t ∧ t.err = .illegalCommand ∧ t.done = true ∧ t.busy = false
      ∧ t.mem = s.mem ∧ t.regs = s.regs)

/-- Rule R187: a pending command is never cancelled. A step from a state with one pending leaves it pending, or completes it,
or asserts the reset input; and where the engine moves next and no reset is asserted it completes. -/
def Obligations.OnlyCompletionOrResetEndsACommand : Prop :=
  (∀ (s t : State) (p : Pending), s.pending = some p → step s = .next t →
    t.pending = some p
    ∨ (t.pending = none ∧ t.done = true ∧ s.EngineNext)
    ∨ (t.pending = none ∧ ∃ rest, s.schedule = .host (.resetLine true) :: rest))
  ∧ (∀ (s : State) (p : Pending), s.pending = some p → s.resetAsserted = false → s.EngineNext →
      ∃ t, step s = .next t ∧ t.pending = none ∧ t.done = true)

/-- Rules R87, R187 and R230: the host's `run <cmd>` reaches the command's own completion however often STATUS reads BUSY = 1
before it, and its last STATUS read returns BUSY = 0. -/
def Obligations.RunningACommandDoesNotDependOnItsLatency : Prop :=
  ∀ (i : Instr) (polls : Nat) (s : State), s.busy = false → s.resetAsserted = false → s.schedule = hostRun i polls →
    ∃ u, exec i (s.startCommand (encode i)) = .next u
      ∧ Sys2Proof.core.run (polls + 3) s = .next { u with schedule := [], readData := some u.statusWord }
      ∧ u.statusWord.getLsbD 0 = false

/-! ### Registers -/

/-- STATUS and the codes (rules R24, R180): BUSY, DONE, WBUSY and ERR stand in their bits, the other bits read 0, the codes
have their numbers, and no reserved code can be read. -/
def Obligations.StatusWordLayout : Prop :=
  (∀ s : State,
    s.statusWord.toNat =
      (if s.busy then 1 else 0) + (if s.done then 2 else 0) + (if s.wbusy then 4 else 0) + 16 * s.err.code.toNat
    ∧ s.err.code.toNat < 7)
  ∧ ErrCode.ok.code = 0#4 ∧ ErrCode.invalidArgument.code = 1#4 ∧ ErrCode.sizeMismatch.code = 2#4
  ∧ ErrCode.indexOutOfRange.code = 3#4 ∧ ErrCode.wrongDomain.code = 4#4 ∧ ErrCode.illegalCommand.code = 5#4
  ∧ ErrCode.outOfBounds.code = 6#4

/-- Rule R40: a host write to CMD while BUSY = 0 starts a command, for every value, with the register copy of rule R41;
WBUSY is unchanged and IRQ drops. -/
def Obligations.CmdWriteStartsACommand : Prop :=
  ∀ (s : State) (v : Word) (rest : List Event), s.busy = false → s.schedule = hostWr .cmd v :: rest →
    ∃ t, step s = .next t
      ∧ t = { s with cmd := v, done := false, err := .ok, errInfo := 0, pending := some ⟨v, s.regs⟩, schedule := rest }
      ∧ t.busy = true ∧ t.irq = false ∧ t.readReg .cmd = v

/-- While BUSY, a host write to any register but STATUS and IRQ_EN is dropped and sets WBUSY, a write to CMD among them;
writes to STATUS and IRQ_EN take effect (10_state.md section 2, rule R26). That a write to the read-only ERR_INFO is dropped
and sets WBUSY too is the model's reading of R26's 'any register' (log entry 8). Reserved offsets are left to
`ReservedOffsetsAndFieldsReadZero`. -/
def Obligations.WritesWhileBusyAreDropped : Prop :=
  ∀ (s : State) (off : Nat) (v : Word) (rest : List Event), s.busy = true →
    s.schedule = .host (.regWrite off 4 v) :: rest → off % 4 = 0 → off < 0x80 → ¬ ReservedOffset off →
    (off ≠ 0x004 → off ≠ 0x008 → step s = .next { s with wbusy := true, schedule := rest })
    ∧ (off = 0x004 → step s = .next
        { s with done := s.done && !v.getLsbD 1, wbusy := s.wbusy && !v.getLsbD 2, schedule := rest })
    ∧ (off = 0x008 → step s = .next { s with doneIe := v.getLsbD 0, schedule := rest })

/-- Rule R27 (and R191's first item): a write to STATUS clears DONE where bit 1 is 1 and WBUSY where bit 2 is 1, and changes
nothing else. -/
def Obligations.StatusWriteClearsDoneAndWbusy : Prop :=
  ∀ (s : State) (v : Word) (rest : List Event), s.schedule = hostWr .status v :: rest →
    ∃ t, step s = .next t
      ∧ t = { s with done := t.done, wbusy := t.wbusy, schedule := rest }
      ∧ (v.getLsbD 1 = true → t.done = false ∧ t.irq = false) ∧ (v.getLsbD 1 = false → t.done = s.done)
      ∧ (v.getLsbD 2 = true → t.wbusy = false) ∧ (v.getLsbD 2 = false → t.wbusy = s.wbusy)

/-- The register map of rule R24 as the host writes it while idle: at each offset, which field of the state an aligned 32-bit
write sets, and that nothing else changes: no other register, no buffer byte, not the race mark; a write to the read-only
ERR_INFO changes nothing. The surface descriptors are set one field at a time. Each register reads back what was written, cut
to its defined bits, and no write to one of them changes what another register reads. -/
def Obligations.ConfigurationRegistersReadBack : Prop :=
  (∀ (s : State) (v : Word), s.busy = false →
    hostMove (.regWrite 0x008 4 v) s = .next { s with doneIe := v.getLsbD 0 }
    ∧ hostMove (.regWrite 0x00C 4 v) s = .next s
    ∧ hostMove (.regWrite 0x010 4 v) s =
        .next { s with regs := { s.regs with width := v.extractLsb' 0 16, height := v.extractLsb' 16 16 } }
    ∧ hostMove (.regWrite 0x014 4 v) s = .next { s with regs := { s.regs with k := v.extractLsb' 0 9 } }
    ∧ hostMove (.regWrite 0x018 4 v) s = .next { s with regs := { s.regs with rangeFirst := v } }
    ∧ hostMove (.regWrite 0x01C 4 v) s = .next { s with regs := { s.regs with rangeCount := v } }
    ∧ hostMove (.regWrite 0x020 4 v) s = .next { s with regs := { s.regs with idxBase := v } }
    ∧ hostMove (.regWrite 0x024 4 v) s = .next { s with regs := { s.regs with outBase := v } }
    ∧ hostMove (.regWrite 0x028 4 v) s = .next { s with regs := { s.regs with outSize := v } }
    ∧ (∀ i : SurfNum,
        hostMove (.regWrite (0x040 + 0x10 * i.val) 4 v) s =
          .next { s with regs := s.regs.setSurf i { s.regs.surf i with base := v } }
        ∧ hostMove (.regWrite (0x044 + 0x10 * i.val) 4 v) s =
          .next { s with regs := s.regs.setSurf i { s.regs.surf i with count := v } }
        ∧ hostMove (.regWrite (0x048 + 0x10 * i.val) 4 v) s =
          .next { s with
            regs := s.regs.setSurf i { s.regs.surf i with tag := if v.getLsbD 0 = true then .chroma else .color } }))
  ∧ (∀ (c : ConfigRegs) (i j : SurfNum) (x : Surface),
      (c.setSurf i x).surf j = (if j = i then x else c.surf j)
      ∧ c.setSurf i x = { c with surfaces := (c.setSurf i x).surfaces })
  ∧ (∀ (s : State) (v : Word), s.busy = false →
    (s.writeReg .dim v).readReg .dim = v
    ∧ (s.writeReg .k v).readReg .k = v &&& 0x1FF#32
    ∧ (s.writeReg .irqEn v).readReg .irqEn = v &&& 1#32
    ∧ (∀ reg, reg = .rangeFirst ∨ reg = .rangeCount ∨ reg = .idxBase ∨ reg = .outBase ∨ reg = .outSize →
        (s.writeReg reg v).readReg reg = v)
    ∧ (∀ i, (s.writeReg (.surfBase i) v).readReg (.surfBase i) = v
        ∧ (s.writeReg (.surfCount i) v).readReg (.surfCount i) = v
        ∧ (s.writeReg (.surfTag i) v).readReg (.surfTag i) = v &&& 1#32)
    ∧ (∀ reg reg', reg ≠ .cmd → reg ≠ .status → reg' ≠ reg → (s.writeReg reg v).readReg reg' = s.readReg reg'))

/-- Rules R23 and R24: reserved offsets read as 0 and writes to them have no effect, BUSY or not; reserved bits of STATUS,
IRQ_EN, K and SURFi_TAG read as 0 and writes ignore them. CMD's RSV bits are kept as written (rule R24), so CMD is not among
them (log entry 10). That a write to a reserved offset while BUSY leaves WBUSY too is the model's reading: a reserved offset is
none of rule R26's registers (log entry 8). -/
def Obligations.ReservedOffsetsAndFieldsReadZero : Prop :=
  (∀ (s : State) (off : Nat) (v : Word), ReservedOffset off → off % 4 = 0 →
    hostMove (.regWrite off 4 v) s = .next s
    ∧ hostMove (.regRead off 4) s = .next { s with readData := some 0 })
  ∧ (∀ s : State, s.readReg .status &&& 0xFFFFFF08#32 = 0 ∧ s.readReg .irqEn &&& 0xFFFFFFFE#32 = 0
      ∧ s.readReg .k &&& 0xFFFFFE00#32 = 0 ∧ ∀ i, s.readReg (.surfTag i) &&& 0xFFFFFFFE#32 = 0)
  ∧ (∀ (s : State) (v : Word), s.writeReg .status v = s.writeReg .status (v &&& 0x6#32)
      ∧ s.writeReg .irqEn v = s.writeReg .irqEn (v &&& 1#32)
      ∧ s.writeReg .k v = s.writeReg .k (v &&& 0x1FF#32)
      ∧ ∀ i, s.writeReg (.surfTag i) v = s.writeReg (.surfTag i) (v &&& 1#32))

/-- Rule R22: a host register access is refused exactly when it is not 32 bits wide, is misaligned, or lies at offset 0x080 or
above; every other one goes on. -/
def Obligations.RegisterAccessesAreAlignedWords : Prop :=
  ∀ (s : State) (off width : Nat) (v : Word),
    (¬ (width = 4 ∧ off % 4 = 0 ∧ off < 0x80) →
      hostMove (.regWrite off width v) s = .refused .registerAccess
      ∧ hostMove (.regRead off width) s = .refused .registerAccess)
    ∧ (width = 4 ∧ off % 4 = 0 ∧ off < 0x80 →
      (∃ t, hostMove (.regWrite off width v) s = .next t) ∧ ∃ t, hostMove (.regRead off width) s = .next t)

/-! ### Buffer accesses -/

/-- Rule R61: a host buffer access is 1, 2 or 4 bytes wide and ends inside MEM_BYTES, else it is refused. A write while no
command's footprint is touched puts the value's bytes at `a, a+1, …`, the least significant at `a`, and leaves every other
byte; a read returns the same little-endian number. That a narrow read's bits above its width are 0, and that the value read
stands in the field `readData`, are the model's (log entry 6). -/
def Obligations.BufferAccessesAreLittleEndian : Prop :=
  ∀ (s : State) (a width : Nat) (v : Word),
    ((¬ (width = 1 ∨ width = 2 ∨ width = 4) →
      hostMove (.memWrite a width v) s = .refused .bufferWidth ∧ hostMove (.memRead a width) s = .refused .bufferWidth)
    ∧ ((width = 1 ∨ width = 2 ∨ width = 4) → s.params.memBytes < a + width →
      hostMove (.memWrite a width v) s = .refused .bufferAddress
      ∧ hostMove (.memRead a width) s = .refused .bufferAddress)
    ∧ ((width = 1 ∨ width = 2 ∨ width = 4) → a + width ≤ s.params.memBytes → s.races a width = false →
      (∃ t, hostMove (.memWrite a width v) s = .next t ∧ t = { s with mem := t.mem }
        ∧ OnlyWithin s.mem t.mem a width
        ∧ ∀ j, j < width → t.mem.readByte (a + j) = v.extractLsb' (8 * j) 8)
      ∧ (∃ t x, hostMove (.memRead a width) s = .next t ∧ t = { s with readData := some x }
        ∧ x.toNat < 2 ^ (8 * width)
        ∧ ∀ j, j < width → x.extractLsb' (8 * j) 8 = s.mem.readByte (a + j))))

/-- Rule R61: a 2- or 4-byte host write is the same as the byte writes at `a, a+1, …`, where no command's footprint is
touched. -/
def Obligations.WideWritesAreByteWrites : Prop :=
  ∀ (s : State) (a width : Nat) (v : Word), s.races a width = false →
    s.hostWrite a width v =
      (List.range width).foldl (fun t j => t.hostWrite (a + j) 1 (v >>> (8 * j))) s

/-- Rule R68: a read has no side effect. A host read of a register changes only what the host sees, the model's own `readData`
(log entry 6), which becomes the value of the register at that offset; a read of buffer bytes outside a pending command's
footprint changes only `readData`. -/
def Obligations.ReadsHaveNoSideEffects : Prop :=
  ∀ (s t : State) (op : HostOp) (rest : List Event), s.schedule = .host op :: rest → step s = .next t →
    (∀ off width, op = .regRead off width →
        t = { s with readData := some (s.readReg (Reg.ofIndex (off / 4))), schedule := rest })
    ∧ (∀ a width, op = .memRead a width → s.races a width = false →
        t = { s with readData := t.readData, schedule := rest })
    ∧ (∀ a width, op = .memRead a width → t.mem = s.mem ∧ t.regs = s.regs ∧ t.statusWord = s.statusWord)

/-- Rule R76: a write to the buffer memory never changes a command already started, nor the registers the next one will be
started from; and a command word reaches the block only through a host write of CMD. -/
def Obligations.BufferWritesNeverChangeACommand : Prop :=
  (∀ (s t : State) (a width : Nat) (v : Word), hostMove (.memWrite a width v) s = .next t →
    t.pending = s.pending ∧ t.cmd = s.cmd ∧ t.regs = s.regs ∧ t.statusWord = s.statusWord ∧ t.operands = s.operands)
  ∧ (∀ (s t : State) (p : Pending), step s = .next t → s.pending = none → t.pending = some p →
      ∃ rest, s.schedule = hostWr .cmd p.word :: rest ∧ p.snap = s.regs)

/-! ### The race mark, the interrupt and reset -/

/-- Rule R35: `race` is false at reset; a step sets it exactly when the host reads or writes a byte of the pending command's
footprint; and no step clears it. -/
def Obligations.RaceMarkRecordsFootprintAccesses : Prop :=
  State.reset.race = false
  ∧ (∀ s t : State, step s = .next t →
      (t.race = true ↔ s.race = true
        ∨ ∃ p op rest a width, s.pending = some p ∧ s.schedule = .host op :: rest
            ∧ (op = .memRead a width ∨ ∃ v, op = .memWrite a width v)
            ∧ ∃ j e, j < width ∧ e ∈ p.footprint ∧ e.base ≤ a + j ∧ a + j < e.base + e.len))

/-- Rules R221 and R61: a host write that touches the pending command's footprint still writes its other bytes as usual; only
bytes of the footprint become unspecified, and the pending command stays. A host read that touches it changes no byte and
returns the byte outside the footprint and a draw inside it. That the whole footprint may change, and which draw a read
returns, are the model's choice (log entries 2 and 9). -/
def Obligations.RacingAccessesDisturbOnlyTheFootprint : Prop :=
  ∀ (s : State) (p : Pending) (a width : Nat) (v : Word), s.pending = some p → s.races a width = true →
    width = 1 ∨ width = 2 ∨ width = 4 → a + width ≤ s.params.memBytes →
    (∃ t, hostMove (.memWrite a width v) s = .next t ∧ t.race = true ∧ t.pending = some p
      ∧ (∀ j, j < width → s.inFootprint (a + j) = false → t.mem.readByte (a + j) = v.extractLsb' (8 * j) 8)
      ∧ (∀ x, ¬ (a ≤ x ∧ x < a + width) → s.inFootprint x = false → t.mem.readByte x = s.mem.readByte x))
    ∧ (∃ t x, hostMove (.memRead a width) s = .next t ∧ t.race = true ∧ t.pending = some p ∧ t.mem = s.mem
      ∧ t.readData = some x
      ∧ ∀ j, j < width → x.extractLsb' (8 * j) 8 =
          if s.inFootprint (a + j) then Config.freeByte (s.draws + j) else s.mem.readByte (a + j))

/-- Rules R68 and R73: while the run stays safe (the race mark clear), a host step leaves a pending command pending and every
byte of its footprint as it was, and a host read of the buffer returns the bytes as they stand, so no host access sees a
part of a command's result. -/
def Obligations.SafeHostStepsSeeNoPartialResult : Prop :=
  ∀ (s t : State) (p : Pending) (op : HostOp) (rest : List Event), s.pending = some p →
    s.schedule = .host op :: rest → op ≠ .resetLine true → step s = .next t → t.Safe →
    t.pending = some p
    ∧ (∀ a, s.inFootprint a = true → t.mem.readByte a = s.mem.readByte a)
    ∧ (∀ a width, op = .memRead a width →
        ∃ x, t.readData = some x ∧ ∀ j, j < width → x.extractLsb' (8 * j) 8 = s.mem.readByte (a + j))

/-- Rules R190 and R191: IRQ is `DONE AND DONE_IE`; every completion sets DONE; the acknowledge write, masking, and a new
command's start lower IRQ, and unmasking while DONE = 1 raises it at once. -/
def Obligations.IrqIsDoneAndEnabled : Prop :=
  (∀ s : State, s.irq = (s.done && s.doneIe))
  ∧ (∀ (i : Instr) (s : State), ∃ t, exec i s = .next t ∧ t.done = true ∧ t.irq = s.doneIe)
  ∧ (∀ s : State, ∃ t, completeIllegal s = .next t ∧ t.done = true ∧ t.irq = s.doneIe)
  ∧ (∀ (s : State) (v : Word), v.getLsbD 1 = true → (s.writeReg .status v).irq = false)
  ∧ (∀ (s : State) (v : Word), (s.writeReg .irqEn v).irq = (s.done && v.getLsbD 0)
      ∧ (s.writeReg .irqEn v).done = s.done)
  ∧ (∀ (s : State) (v : Word), s.busy = false → (s.writeReg .cmd v).irq = false)

/-- Rule R210: when the reset input is asserted every register takes its reset value and a pending command is dropped, IRQ is
low, the race mark stays; and while it is asserted the completion step is disabled: the engine's move changes nothing. The
reset values are those of rule R24. -/
def Obligations.ResetPutsEveryRegisterAtZero : Prop :=
  (∀ (s : State) (rest : List Event), s.schedule = .host (.resetLine true) :: rest →
    ∃ t, step s = .next t
      ∧ (∀ reg, t.readReg reg = 0)
      ∧ (∀ i, (t.regs.surf i).tag = .color)
      ∧ t.statusWord = 0 ∧ t.irq = false ∧ t.pending = none ∧ t.race = s.race ∧ t.resetAsserted = true
      ∧ t.schedule = rest)
  ∧ (∀ s : State, s.resetAsserted = true → s.EngineNext → step s = .next { s with schedule := s.schedule.tail })

/-- Rules R211 and R212: a reset leaves buffer bytes as they were, except that every byte of a pending command's write extent
is unspecified (in the model, a draw, log entry 2). The command never completes. A pending word that decodes to ILLEGAL has no
write extent, so the buffer is then unchanged (log entry 14). -/
def Obligations.ResetKeepsTheBufferButTheWriteExtent : Prop :=
  (∀ (s : State) (rest : List Event), s.schedule = .host (.resetLine true) :: rest → s.pending = none →
    ∃ t, step s = .next t ∧ t.mem = s.mem)
  ∧ (∀ (s : State) (p : Pending) (rest : List Event), s.schedule = .host (.resetLine true) :: rest →
      s.pending = some p → decode p.word = none →
      ∃ t, step s = .next t ∧ t.pending = none ∧ t.done = false ∧ t.mem = s.mem)
  ∧ (∀ (s : State) (p : Pending) (i : Instr) (rest : List Event), s.schedule = .host (.resetLine true) :: rest →
      s.pending = some p → decode p.word = some i →
      ∃ t, step s = .next t ∧ t.pending = none ∧ t.done = false
        ∧ OnlyWithin s.mem t.mem (writeExtent i p.snap).base (writeExtent i p.snap).len
        ∧ (∀ j, j < (writeExtent i p.snap).len → (writeExtent i p.snap).base + j < s.params.memBytes →
            t.mem.readByte ((writeExtent i p.snap).base + j) = Config.freeByte (s.draws + j)))

/-- The reset state (rules R24, R35, R210, R211): every register reads 0, the block is idle, and no buffer byte has been
written, so each reads as its power-on draw (log entry 1). -/
def Obligations.ResetStateReadsZero : Prop :=
  (∀ reg, State.reset.readReg reg = 0) ∧ (∀ i, (State.reset.regs.surf i).tag = .color)
  ∧ State.reset.busy = false ∧ State.reset.irq = false ∧ State.reset.race = false
  ∧ ∀ a, State.reset.mem.readByte a = Config.powerOnByte a

/-! ### The whole machine -/

/-- The reset state meets the invariant. -/
def Obligations.ResetStateMeetsTheInvariant : Prop := State.reset.Inv

/-- Every step keeps the invariant: the memory's canonical form inside MEM_BYTES, a pending command's word and register copy
equal to the live ones, STATUS and ERR_INFO cleared while a command is pending, ERR_INFO 0 unless an index was bad. -/
def Obligations.EveryStepKeepsTheInvariant : Prop :=
  ∀ s t : State, s.Inv → step s = .next t → t.Inv

/-- Rule R8: no step changes the parameters. -/
def Obligations.NoStepChangesTheParameters : Prop :=
  ∀ s t : State, step s = .next t → t.params = s.params

/-- Rule R188: no step faults, and the only steps that are refused are host accesses that rules R22 and R61 refuse. -/
def Obligations.OnlyHostAccessesAreRefused : Prop :=
  ∀ s : State,
    (∀ f, step s ≠ .fault f)
    ∧ (∀ r, step s = .refused r →
        ∃ op rest, s.schedule = .host op :: rest
          ∧ ((r = .registerAccess ∧ ∃ off width, ((∃ v, op = .regWrite off width v) ∨ op = .regRead off width)
                ∧ ¬ (width = 4 ∧ off % 4 = 0 ∧ off < 0x80))
            ∨ (r = .bufferWidth ∧ ∃ a width, ((∃ v, op = .memWrite a width v) ∨ op = .memRead a width)
                ∧ ¬ (width = 1 ∨ width = 2 ∨ width = 4))
            ∨ (r = .bufferAddress ∧ ∃ a width, ((∃ v, op = .memWrite a width v) ∨ op = .memRead a width)
                ∧ s.params.memBytes < a + width)))

/-- Rule R32, over every step: a surface's tag changes only by the host's write to its SURFi_TAG, by reset, to `CHROMA` by the
completion step of a CSC_FWD into it that completes with OK, or to `COLOR` by that of such a CSC_INV. -/
def Obligations.OnlyConvertersTheHostAndResetWriteTags : Prop :=
  ∀ (s t : State) (i : SurfNum), step s = .next t → (t.regs.surf i).tag ≠ (s.regs.surf i).tag →
    (∃ v rest, s.schedule = hostWr (.surfTag i) v :: rest ∧ (t.regs.surf i).tag = Tag.ofBit (v.getLsbD 0))
    ∨ (∃ rest, s.schedule = .host (.resetLine true) :: rest ∧ (t.regs.surf i).tag = .color)
    ∨ (∃ p src range, s.pending = some p ∧ decode p.word = some (.cscFwd src i range) ∧ s.EngineNext
        ∧ s.resetAsserted = false ∧ t.pending = none ∧ t.done = true ∧ t.err = .ok ∧ (t.regs.surf i).tag = .chroma)
    ∨ (∃ p src range, s.pending = some p ∧ decode p.word = some (.cscInv src i range) ∧ s.EngineNext
        ∧ s.resetAsserted = false ∧ t.pending = none ∧ t.done = true ∧ t.err = .ok ∧ (t.regs.surf i).tag = .color)

/-! ### The register map as the host reads it, and the release of the reset input -/

/-- The register map of rule R24 as the host reads it, in every state: the value an aligned 32-bit read returns at each
offset, field by field, from the field of the state that the commands use. That the value stands in `readData` is the model's
(log entry 6). -/
def Obligations.RegisterReadsFollowTheMap : Prop :=
  ∀ s : State,
    hostMove (.regRead 0x000 4) s = .next { s with readData := some s.cmd }
    ∧ hostMove (.regRead 0x004 4) s = .next { s with readData := some s.statusWord }
    ∧ (∃ x, hostMove (.regRead 0x008 4) s = .next { s with readData := some x }
        ∧ x.toNat = if s.doneIe = true then 1 else 0)
    ∧ hostMove (.regRead 0x00C 4) s = .next { s with readData := some s.errInfo }
    ∧ (∃ x, hostMove (.regRead 0x010 4) s = .next { s with readData := some x }
        ∧ x.extractLsb' 0 16 = s.regs.width ∧ x.extractLsb' 16 16 = s.regs.height)
    ∧ (∃ x, hostMove (.regRead 0x014 4) s = .next { s with readData := some x } ∧ x.toNat = s.regs.k.toNat)
    ∧ hostMove (.regRead 0x018 4) s = .next { s with readData := some s.regs.rangeFirst }
    ∧ hostMove (.regRead 0x01C 4) s = .next { s with readData := some s.regs.rangeCount }
    ∧ hostMove (.regRead 0x020 4) s = .next { s with readData := some s.regs.idxBase }
    ∧ hostMove (.regRead 0x024 4) s = .next { s with readData := some s.regs.outBase }
    ∧ hostMove (.regRead 0x028 4) s = .next { s with readData := some s.regs.outSize }
    ∧ (∀ i : SurfNum,
        hostMove (.regRead (0x040 + 0x10 * i.val) 4) s = .next { s with readData := some (s.regs.surf i).base }
        ∧ hostMove (.regRead (0x044 + 0x10 * i.val) 4) s = .next { s with readData := some (s.regs.surf i).count }
        ∧ ∃ x, hostMove (.regRead (0x048 + 0x10 * i.val) 4) s = .next { s with readData := some x }
            ∧ x.toNat = if (s.regs.surf i).tag = .chroma then 1 else 0)

/-- The release of the reset input (rules R186 and R210): it clears the input's level and changes nothing else, so the
completion step is enabled again and a command pending then completes at the engine's next move. That the input is a level
which the host releases in a step of its own, and that a command can be pending while it is asserted, are the model's (log
entry 7). -/
def Obligations.ReleasingResetEnablesTheCompletion : Prop :=
  (∀ (s : State) (rest : List Event), s.schedule = .host (.resetLine false) :: rest →
    step s = .next { s with resetAsserted := false, schedule := rest })
  ∧ (∀ (s : State) (p : Pending) (rest : List Event), s.pending = some p →
      s.schedule = .host (.resetLine false) :: .engine :: rest →
      ∃ t u, step s = .next t ∧ t.pending = some p ∧ step t = .next u ∧ u.pending = none ∧ u.done = true
        ∧ ∀ i, decode p.word = some i → exec i { s with resetAsserted := false, schedule := rest } = .next u)
end

