-- ==== Sys2Proof/Laws/State.lean ====
section
/-! SUPPORT. One lemma per field of the state and shared update, so that no later proof unfolds a record update; the
surface descriptors' read-after-write laws; and the same for a whole register file. -/

namespace Sys2Proof.Machine

/-! ### `State.complete` -/

@[simp] theorem complete_params (r : Result) (s : State) : (s.complete r).params = s.params := rfl
@[simp] theorem complete_cmd (r : Result) (s : State) : (s.complete r).cmd = s.cmd := rfl
@[simp] theorem complete_done (r : Result) (s : State) : (s.complete r).done = true := rfl
@[simp] theorem complete_wbusy (r : Result) (s : State) : (s.complete r).wbusy = s.wbusy := rfl
@[simp] theorem complete_err (r : Result) (s : State) : (s.complete r).err = r.err := rfl
@[simp] theorem complete_doneIe (r : Result) (s : State) : (s.complete r).doneIe = s.doneIe := rfl
@[simp] theorem complete_errInfo (r : Result) (s : State) : (s.complete r).errInfo = r.info.getD s.errInfo := rfl
@[simp] theorem complete_regs (r : Result) (s : State) : (s.complete r).regs = r.applyTag s.regs := rfl
@[simp] theorem complete_mem (r : Result) (s : State) : (s.complete r).mem = s.mem.writeBytes r.base r.bytes := rfl
@[simp] theorem complete_pending (r : Result) (s : State) : (s.complete r).pending = none := rfl
@[simp] theorem complete_race (r : Result) (s : State) : (s.complete r).race = s.race := rfl
@[simp] theorem complete_resetAsserted (r : Result) (s : State) : (s.complete r).resetAsserted = s.resetAsserted := rfl
@[simp] theorem complete_schedule (r : Result) (s : State) : (s.complete r).schedule = s.schedule := rfl
@[simp] theorem complete_readData (r : Result) (s : State) : (s.complete r).readData = s.readData := rfl
@[simp] theorem complete_draws (r : Result) (s : State) : (s.complete r).draws = s.draws + r.drawn := rfl

/-! ### `State.startCommand` -/

@[simp] theorem startCommand_params (v : Word) (s : State) : (s.startCommand v).params = s.params := rfl
@[simp] theorem startCommand_cmd (v : Word) (s : State) : (s.startCommand v).cmd = v := rfl
@[simp] theorem startCommand_done (v : Word) (s : State) : (s.startCommand v).done = false := rfl
@[simp] theorem startCommand_wbusy (v : Word) (s : State) : (s.startCommand v).wbusy = s.wbusy := rfl
@[simp] theorem startCommand_err (v : Word) (s : State) : (s.startCommand v).err = .ok := rfl
@[simp] theorem startCommand_doneIe (v : Word) (s : State) : (s.startCommand v).doneIe = s.doneIe := rfl
@[simp] theorem startCommand_errInfo (v : Word) (s : State) : (s.startCommand v).errInfo = 0 := rfl
@[simp] theorem startCommand_regs (v : Word) (s : State) : (s.startCommand v).regs = s.regs := rfl
@[simp] theorem startCommand_mem (v : Word) (s : State) : (s.startCommand v).mem = s.mem := rfl
@[simp] theorem startCommand_pending (v : Word) (s : State) : (s.startCommand v).pending = some ⟨v, s.regs⟩ := rfl
@[simp] theorem startCommand_race (v : Word) (s : State) : (s.startCommand v).race = s.race := rfl
@[simp] theorem startCommand_resetAsserted (v : Word) (s : State) : (s.startCommand v).resetAsserted = s.resetAsserted := rfl
@[simp] theorem startCommand_schedule (v : Word) (s : State) : (s.startCommand v).schedule = s.schedule := rfl
@[simp] theorem startCommand_readData (v : Word) (s : State) : (s.startCommand v).readData = s.readData := rfl
@[simp] theorem startCommand_draws (v : Word) (s : State) : (s.startCommand v).draws = s.draws := rfl

/-! ### `State.acknowledge` -/

@[simp] theorem acknowledge_params (v : Word) (s : State) : (s.acknowledge v).params = s.params := rfl
@[simp] theorem acknowledge_cmd (v : Word) (s : State) : (s.acknowledge v).cmd = s.cmd := rfl
@[simp] theorem acknowledge_done (v : Word) (s : State) : (s.acknowledge v).done = (s.done && !v.getLsbD 1) := rfl
@[simp] theorem acknowledge_wbusy (v : Word) (s : State) : (s.acknowledge v).wbusy = (s.wbusy && !v.getLsbD 2) := rfl
@[simp] theorem acknowledge_err (v : Word) (s : State) : (s.acknowledge v).err = s.err := rfl
@[simp] theorem acknowledge_doneIe (v : Word) (s : State) : (s.acknowledge v).doneIe = s.doneIe := rfl
@[simp] theorem acknowledge_errInfo (v : Word) (s : State) : (s.acknowledge v).errInfo = s.errInfo := rfl
@[simp] theorem acknowledge_regs (v : Word) (s : State) : (s.acknowledge v).regs = s.regs := rfl
@[simp] theorem acknowledge_mem (v : Word) (s : State) : (s.acknowledge v).mem = s.mem := rfl
@[simp] theorem acknowledge_pending (v : Word) (s : State) : (s.acknowledge v).pending = s.pending := rfl
@[simp] theorem acknowledge_race (v : Word) (s : State) : (s.acknowledge v).race = s.race := rfl
@[simp] theorem acknowledge_resetAsserted (v : Word) (s : State) : (s.acknowledge v).resetAsserted = s.resetAsserted := rfl
@[simp] theorem acknowledge_schedule (v : Word) (s : State) : (s.acknowledge v).schedule = s.schedule := rfl
@[simp] theorem acknowledge_readData (v : Word) (s : State) : (s.acknowledge v).readData = s.readData := rfl
@[simp] theorem acknowledge_draws (v : Word) (s : State) : (s.acknowledge v).draws = s.draws := rfl

/-! ### `State.scramble` -/

@[simp] theorem scramble_params (e : Extent) (s : State) : (s.scramble e).params = s.params := rfl
@[simp] theorem scramble_cmd (e : Extent) (s : State) : (s.scramble e).cmd = s.cmd := rfl
@[simp] theorem scramble_done (e : Extent) (s : State) : (s.scramble e).done = s.done := rfl
@[simp] theorem scramble_wbusy (e : Extent) (s : State) : (s.scramble e).wbusy = s.wbusy := rfl
@[simp] theorem scramble_err (e : Extent) (s : State) : (s.scramble e).err = s.err := rfl
@[simp] theorem scramble_doneIe (e : Extent) (s : State) : (s.scramble e).doneIe = s.doneIe := rfl
@[simp] theorem scramble_errInfo (e : Extent) (s : State) : (s.scramble e).errInfo = s.errInfo := rfl
@[simp] theorem scramble_regs (e : Extent) (s : State) : (s.scramble e).regs = s.regs := rfl
@[simp] theorem scramble_mem (e : Extent) (s : State) : (s.scramble e).mem = s.mem.writeBytes (e.clip s.params.memBytes).base (freeBytes s.draws (e.clip s.params.memBytes).len) := rfl
@[simp] theorem scramble_pending (e : Extent) (s : State) : (s.scramble e).pending = s.pending := rfl
@[simp] theorem scramble_race (e : Extent) (s : State) : (s.scramble e).race = s.race := rfl
@[simp] theorem scramble_resetAsserted (e : Extent) (s : State) : (s.scramble e).resetAsserted = s.resetAsserted := rfl
@[simp] theorem scramble_schedule (e : Extent) (s : State) : (s.scramble e).schedule = s.schedule := rfl
@[simp] theorem scramble_readData (e : Extent) (s : State) : (s.scramble e).readData = s.readData := rfl
@[simp] theorem scramble_draws (e : Extent) (s : State) : (s.scramble e).draws = s.draws + (e.clip s.params.memBytes).len := rfl

/-! ### `State.resetRegisters` -/

@[simp] theorem resetRegisters_params (s : State) : (s.resetRegisters).params = s.params := rfl
@[simp] theorem resetRegisters_cmd (s : State) : (s.resetRegisters).cmd = 0 := rfl
@[simp] theorem resetRegisters_done (s : State) : (s.resetRegisters).done = false := rfl
@[simp] theorem resetRegisters_wbusy (s : State) : (s.resetRegisters).wbusy = false := rfl
@[simp] theorem resetRegisters_err (s : State) : (s.resetRegisters).err = .ok := rfl
@[simp] theorem resetRegisters_doneIe (s : State) : (s.resetRegisters).doneIe = false := rfl
@[simp] theorem resetRegisters_errInfo (s : State) : (s.resetRegisters).errInfo = 0 := rfl
@[simp] theorem resetRegisters_regs (s : State) : (s.resetRegisters).regs = .reset := rfl
@[simp] theorem resetRegisters_mem (s : State) : (s.resetRegisters).mem = s.mem := rfl
@[simp] theorem resetRegisters_pending (s : State) : (s.resetRegisters).pending = none := rfl
@[simp] theorem resetRegisters_race (s : State) : (s.resetRegisters).race = s.race := rfl
@[simp] theorem resetRegisters_resetAsserted (s : State) : (s.resetRegisters).resetAsserted = s.resetAsserted := rfl
@[simp] theorem resetRegisters_schedule (s : State) : (s.resetRegisters).schedule = s.schedule := rfl
@[simp] theorem resetRegisters_readData (s : State) : (s.resetRegisters).readData = s.readData := rfl
@[simp] theorem resetRegisters_draws (s : State) : (s.resetRegisters).draws = s.draws := rfl

@[simp] theorem complete_busy (r : Result) (s : State) : (s.complete r).busy = false := rfl
@[simp] theorem startCommand_busy (v : Word) (s : State) : (s.startCommand v).busy = true := rfl
@[simp] theorem acknowledge_busy (v : Word) (s : State) : (s.acknowledge v).busy = s.busy := rfl
@[simp] theorem scramble_busy (e : Extent) (s : State) : (s.scramble e).busy = s.busy := rfl
@[simp] theorem resetRegisters_busy (s : State) : s.resetRegisters.busy = false := rfl

/-! ### `State.scrambleAll` changes the memory and the draw counter only -/

@[simp] theorem scrambleAll_params (es : List Extent) (s : State) : (s.scrambleAll es).params = s.params := by
  induction es generalizing s with
  | nil => rfl
  | cons e es ih => exact (ih _).trans rfl

@[simp] theorem scrambleAll_cmd (es : List Extent) (s : State) : (s.scrambleAll es).cmd = s.cmd := by
  induction es generalizing s with
  | nil => rfl
  | cons e es ih => exact (ih _).trans rfl

@[simp] theorem scrambleAll_done (es : List Extent) (s : State) : (s.scrambleAll es).done = s.done := by
  induction es generalizing s with
  | nil => rfl
  | cons e es ih => exact (ih _).trans rfl

@[simp] theorem scrambleAll_wbusy (es : List Extent) (s : State) : (s.scrambleAll es).wbusy = s.wbusy := by
  induction es generalizing s with
  | nil => rfl
  | cons e es ih => exact (ih _).trans rfl

@[simp] theorem scrambleAll_err (es : List Extent) (s : State) : (s.scrambleAll es).err = s.err := by
  induction es generalizing s with
  | nil => rfl
  | cons e es ih => exact (ih _).trans rfl

@[simp] theorem scrambleAll_doneIe (es : List Extent) (s : State) : (s.scrambleAll es).doneIe = s.doneIe := by
  induction es generalizing s with
  | nil => rfl
  | cons e es ih => exact (ih _).trans rfl

@[simp] theorem scrambleAll_errInfo (es : List Extent) (s : State) : (s.scrambleAll es).errInfo = s.errInfo := by
  induction es generalizing s with
  | nil => rfl
  | cons e es ih => exact (ih _).trans rfl

@[simp] theorem scrambleAll_regs (es : List Extent) (s : State) : (s.scrambleAll es).regs = s.regs := by
  induction es generalizing s with
  | nil => rfl
  | cons e es ih => exact (ih _).trans rfl

@[simp] theorem scrambleAll_pending (es : List Extent) (s : State) : (s.scrambleAll es).pending = s.pending := by
  induction es generalizing s with
  | nil => rfl
  | cons e es ih => exact (ih _).trans rfl

@[simp] theorem scrambleAll_race (es : List Extent) (s : State) : (s.scrambleAll es).race = s.race := by
  induction es generalizing s with
  | nil => rfl
  | cons e es ih => exact (ih _).trans rfl

@[simp] theorem scrambleAll_resetAsserted (es : List Extent) (s : State) : (s.scrambleAll es).resetAsserted = s.resetAsserted := by
  induction es generalizing s with
  | nil => rfl
  | cons e es ih => exact (ih _).trans rfl

@[simp] theorem scrambleAll_schedule (es : List Extent) (s : State) : (s.scrambleAll es).schedule = s.schedule := by
  induction es generalizing s with
  | nil => rfl
  | cons e es ih => exact (ih _).trans rfl

@[simp] theorem scrambleAll_readData (es : List Extent) (s : State) : (s.scrambleAll es).readData = s.readData := by
  induction es generalizing s with
  | nil => rfl
  | cons e es ih => exact (ih _).trans rfl

@[simp] theorem scrambleAll_busy (es : List Extent) (s : State) : (s.scrambleAll es).busy = s.busy := by
  simp [State.busy]

/-! ### Operands -/

theorem operands_of_pending {s : State} {p : Pending} (h : s.pending = some p) : s.operands = p.snap := by
  simp [State.operands, h]

theorem operands_of_idle {s : State} (h : s.pending = none) : s.operands = s.regs := by
  simp [State.operands, h]

/-! ### Surface descriptors -/

theorem surfaces_get_set (f : Surfaces) (i j : SurfNum) (x : Surface) :
    (f.set i x).get j = if j = i then x else f.get j := by
  fin_cases i <;> fin_cases j <;> rfl

@[simp] theorem surf_setSurf_self (c : ConfigRegs) (i : SurfNum) (x : Surface) : (c.setSurf i x).surf i = x := by
  simp [ConfigRegs.surf, ConfigRegs.setSurf, surfaces_get_set]

theorem surf_setSurf (c : ConfigRegs) (i j : SurfNum) (x : Surface) :
    (c.setSurf i x).surf j = if j = i then x else c.surf j := by
  simp [ConfigRegs.surf, ConfigRegs.setSurf, surfaces_get_set]

theorem surf_setTag (c : ConfigRegs) (i j : SurfNum) (t : Tag) :
    (c.setTag i t).surf j = if j = i then { c.surf i with tag := t } else c.surf j := by
  simp [ConfigRegs.setTag, surf_setSurf]

@[simp] theorem setTag_base (c : ConfigRegs) (i j : SurfNum) (t : Tag) :
    ((c.setTag i t).surf j).base = (c.surf j).base := by
  rw [surf_setTag]; split
  · subst_vars; rfl
  · rfl

@[simp] theorem setTag_count (c : ConfigRegs) (i j : SurfNum) (t : Tag) :
    ((c.setTag i t).surf j).count = (c.surf j).count := by
  rw [surf_setTag]; split
  · subst_vars; rfl
  · rfl

@[simp] theorem setSurf_width (c : ConfigRegs) (i : SurfNum) (x : Surface) : (c.setSurf i x).width = c.width := rfl
@[simp] theorem setSurf_height (c : ConfigRegs) (i : SurfNum) (x : Surface) : (c.setSurf i x).height = c.height := rfl
@[simp] theorem setSurf_k (c : ConfigRegs) (i : SurfNum) (x : Surface) : (c.setSurf i x).k = c.k := rfl
@[simp] theorem setSurf_rangeFirst (c : ConfigRegs) (i : SurfNum) (x : Surface) : (c.setSurf i x).rangeFirst = c.rangeFirst := rfl
@[simp] theorem setSurf_rangeCount (c : ConfigRegs) (i : SurfNum) (x : Surface) : (c.setSurf i x).rangeCount = c.rangeCount := rfl
@[simp] theorem setSurf_idxBase (c : ConfigRegs) (i : SurfNum) (x : Surface) : (c.setSurf i x).idxBase = c.idxBase := rfl
@[simp] theorem setSurf_outBase (c : ConfigRegs) (i : SurfNum) (x : Surface) : (c.setSurf i x).outBase = c.outBase := rfl
@[simp] theorem setSurf_outSize (c : ConfigRegs) (i : SurfNum) (x : Surface) : (c.setSurf i x).outSize = c.outSize := rfl
@[simp] theorem setSurf_kNat (c : ConfigRegs) (i : SurfNum) (x : Surface) : (c.setSurf i x).kNat = c.kNat := rfl
@[simp] theorem setSurf_npix (c : ConfigRegs) (i : SurfNum) (x : Surface) : (c.setSurf i x).npix = c.npix := rfl

@[simp] theorem setTag_width (c : ConfigRegs) (i : SurfNum) (t : Tag) : (c.setTag i t).width = c.width := rfl
@[simp] theorem setTag_height (c : ConfigRegs) (i : SurfNum) (t : Tag) : (c.setTag i t).height = c.height := rfl
@[simp] theorem setTag_k (c : ConfigRegs) (i : SurfNum) (t : Tag) : (c.setTag i t).k = c.k := rfl
@[simp] theorem setTag_rangeFirst (c : ConfigRegs) (i : SurfNum) (t : Tag) : (c.setTag i t).rangeFirst = c.rangeFirst := rfl
@[simp] theorem setTag_rangeCount (c : ConfigRegs) (i : SurfNum) (t : Tag) : (c.setTag i t).rangeCount = c.rangeCount := rfl
@[simp] theorem setTag_idxBase (c : ConfigRegs) (i : SurfNum) (t : Tag) : (c.setTag i t).idxBase = c.idxBase := rfl
@[simp] theorem setTag_outBase (c : ConfigRegs) (i : SurfNum) (t : Tag) : (c.setTag i t).outBase = c.outBase := rfl
@[simp] theorem setTag_outSize (c : ConfigRegs) (i : SurfNum) (t : Tag) : (c.setTag i t).outSize = c.outSize := rfl
@[simp] theorem setTag_kNat (c : ConfigRegs) (i : SurfNum) (t : Tag) : (c.setTag i t).kNat = c.kNat := rfl
@[simp] theorem setTag_npix (c : ConfigRegs) (i : SurfNum) (t : Tag) : (c.setTag i t).npix = c.npix := rfl

end Sys2Proof.Machine
end

