-- ==== Sys2Proof/Laws/Memory.lean ====
section
/-! SUPPORT. The laws of the buffer memory: what a byte reads as after a write, and that every write keeps the canonical
form and stays inside the buffer. -/

namespace Sys2Proof.Machine

/-! ### Reading after writing -/

theorem lookupByte_writeByte (m : Memory) (a x : Nat) (v : Byte) :
    (m.writeByte a v).lookupByte x = if x = a then some v else m.lookupByte x := by
  induction m with
  | nil => simp [Memory.writeByte, Memory.lookupByte]
  | cons c m ih =>
    obtain ⟨b, y⟩ := c
    rw [Memory.writeByte]
    split
    · simp [Memory.lookupByte]
    · split
      · subst_vars; simp only [Memory.lookupByte]; split <;> rfl
      · simp only [Memory.lookupByte, ih]
        by_cases h1 : x = b <;> by_cases h2 : x = a <;> simp_all

theorem readByte_writeByte (m : Memory) (a x : Nat) (v : Byte) :
    (m.writeByte a v).readByte x = if x = a then v else m.readByte x := by
  unfold Memory.readByte
  rw [lookupByte_writeByte]
  split <;> rfl

@[simp] theorem writeBytes_nil (m : Memory) (a : Nat) : m.writeBytes a [] = m := rfl

theorem writeBytes_append (m : Memory) (a : Nat) (us vs : List Byte) :
    m.writeBytes a (us ++ vs) = (m.writeBytes a us).writeBytes (a + us.length) vs := by
  induction us generalizing m a with
  | nil => rfl
  | cons u us ih =>
    simp only [List.cons_append, Memory.writeBytes, List.length_cons, ih]
    congr 1
    omega

/-- What a byte reads as after a block write: the block's byte inside it, the old byte outside it. -/
theorem readByte_writeBytes (m : Memory) (a x : Nat) (vs : List Byte) :
    (m.writeBytes a vs).readByte x = if a ≤ x then (vs[x - a]?).getD (m.readByte x) else m.readByte x := by
  induction vs generalizing m a with
  | nil => simp
  | cons v vs ih =>
    rw [Memory.writeBytes, ih, readByte_writeByte]
    by_cases h : x = a
    · subst h; simp
    · by_cases h1 : a + 1 ≤ x
      · have h2 : x - a = (x - (a + 1)) + 1 := by omega
        rw [if_pos h1, if_pos (by omega : a ≤ x), if_neg h, h2, List.getElem?_cons_succ]
      · rw [if_neg h1, if_neg (by omega : ¬ a ≤ x), if_neg h]

theorem readByte_writeBytes_inside {m : Memory} {a j : Nat} {vs : List Byte} (h : j < vs.length) :
    (m.writeBytes a vs).readByte (a + j) = vs[j] := by
  rw [readByte_writeBytes, if_pos (by omega), Nat.add_sub_cancel_left, List.getElem?_eq_getElem h, Option.getD_some]

theorem readByte_writeBytes_outside {m : Memory} {a x : Nat} {vs : List Byte} (h : ¬ (a ≤ x ∧ x < a + vs.length)) :
    (m.writeBytes a vs).readByte x = m.readByte x := by
  rw [readByte_writeBytes]
  split
  · rw [List.getElem?_eq_none (by omega), Option.getD_none]
  · rfl

theorem onlyWithin_writeBytes (m : Memory) (a : Nat) (vs : List Byte) :
    OnlyWithin m (m.writeBytes a vs) a vs.length := fun _ h => readByte_writeBytes_outside h

/-! ### The canonical form -/

theorem mem_writeByte {m : Memory} {a : Nat} {v : Byte} {c : Host.Cell} (h : c ∈ m.writeByte a v) :
    c = (a, v) ∨ c ∈ m := by
  induction m with
  | nil => simpa [Memory.writeByte] using h
  | cons d m ih =>
    obtain ⟨b, y⟩ := d
    rw [Memory.writeByte] at h
    split at h
    · simpa using h
    · split at h
      · rcases List.mem_cons.1 h with h | h
        · exact .inl h
        · exact .inr (List.mem_cons_of_mem _ h)
      · rcases List.mem_cons.1 h with h | h
        · exact .inr (h ▸ List.mem_cons_self)
        · exact (ih h).imp_right (List.mem_cons_of_mem _)

/-- A byte write keeps the canonical form. -/
theorem wf_writeByte {m : Memory} (h : m.wf) (a : Nat) (v : Byte) : (m.writeByte a v).wf := by
  induction m with
  | nil => simp [Memory.writeByte, Memory.wf]
  | cons c m ih =>
    obtain ⟨b, y⟩ := c
    have hb := (List.pairwise_cons.1 h).1
    have hm := (List.pairwise_cons.1 h).2
    rw [Memory.writeByte]
    split
    · rename_i hab
      refine List.pairwise_cons.2 ⟨fun d hd => ?_, h⟩
      rcases List.mem_cons.1 hd with rfl | hd
      · exact hab
      · exact lt_trans hab (hb d hd)
    · split
      · subst_vars; exact List.pairwise_cons.2 ⟨hb, hm⟩
      · refine List.pairwise_cons.2 ⟨fun d hd => ?_, ih hm⟩
        rcases mem_writeByte hd with rfl | hd
        · show b < a; omega
        · exact hb d hd

/-- A block write keeps the canonical form. -/
theorem wf_writeBytes {m : Memory} (h : m.wf) (a : Nat) (vs : List Byte) : (m.writeBytes a vs).wf := by
  induction vs generalizing m a with
  | nil => exact h
  | cons v vs ih => exact ih (wf_writeByte h a v) (a + 1)

/-- A byte write inside the buffer keeps every listed address inside it. -/
theorem inside_writeByte {m : Memory} {n a : Nat} (h : m.inside n) (ha : a < n) (v : Byte) :
    (m.writeByte a v).inside n := by
  intro c hc
  rcases mem_writeByte hc with rfl | hc
  · exact ha
  · exact h c hc

/-- A block write inside the buffer keeps every listed address inside it; an empty one lies anywhere. -/
theorem inside_writeBytes {m : Memory} {n : Nat} (h : m.inside n) (a : Nat) (vs : List Byte)
    (ha : vs = [] ∨ a + vs.length ≤ n) : (m.writeBytes a vs).inside n := by
  induction vs generalizing m a with
  | nil => exact h
  | cons v vs ih =>
    have hl : a + (vs.length + 1) ≤ n := by simpa using ha
    exact ih (inside_writeByte h (by omega) v) (a + 1) (.inr (by omega))

theorem lookupByte_eq_none_of_lt {m : Memory} {a : Nat} (h : ∀ c ∈ m, a < c.1) : m.lookupByte a = none := by
  induction m with
  | nil => rfl
  | cons c m ih =>
    have hc : a < c.1 := h c List.mem_cons_self
    rw [Memory.lookupByte, if_neg (by omega), ih fun d hd => h d (List.mem_cons_of_mem _ hd)]

/-- Two memories in canonical form that hold the same written bytes are the same list. -/
theorem wf_ext {m n : Memory} (hm : m.wf) (hn : n.wf) (h : ∀ a, m.lookupByte a = n.lookupByte a) : m = n := by
  induction m generalizing n with
  | nil =>
    cases n with
    | nil => rfl
    | cons d n => have := h d.1; simp [Memory.lookupByte] at this
  | cons c m ih =>
    obtain ⟨b, y⟩ := c
    have hb := (List.pairwise_cons.1 hm).1
    cases n with
    | nil => have := h b; simp [Memory.lookupByte] at this
    | cons d n =>
      obtain ⟨b', y'⟩ := d
      have hb' := (List.pairwise_cons.1 hn).1
      have hbb : b = b' := by
        rcases Nat.lt_trichotomy b b' with hlt | heq | hgt
        · have h1 := h b
          have h2 : Memory.lookupByte ((b', y') :: n) b = none := lookupByte_eq_none_of_lt fun e he => by
            rcases List.mem_cons.1 he with rfl | he
            · exact hlt
            · exact lt_trans hlt (hb' e he)
          rw [h2] at h1; simp [Memory.lookupByte] at h1
        · exact heq
        · have h1 := h b'
          have h2 : Memory.lookupByte ((b, y) :: m) b' = none := lookupByte_eq_none_of_lt fun e he => by
            rcases List.mem_cons.1 he with rfl | he
            · exact hgt
            · exact lt_trans hgt (hb e he)
          rw [h2] at h1; simp [Memory.lookupByte] at h1
      subst hbb
      have hy : y = y' := by have := h b; simpa [Memory.lookupByte] using this
      subst hy
      rw [ih (List.pairwise_cons.1 hm).2 (List.pairwise_cons.1 hn).2 fun a => ?_]
      by_cases ha : a = b
      · subst ha; rw [lookupByte_eq_none_of_lt hb, lookupByte_eq_none_of_lt hb']
      · have := h a; simpa [Memory.lookupByte, ha] using this

/-! ### Draws and words -/

@[simp] theorem freeBytes_length (start n : Nat) : (freeBytes start n).length = n := by simp [freeBytes]

theorem freeBytes_getElem {start n j : Nat} (h : j < (freeBytes start n).length) :
    (freeBytes start n)[j] = Config.freeByte (start + j) := by simp [freeBytes]

@[simp] theorem bytesOfWord_length (v : Word) (n : Nat) : (bytesOfWord v n).length = n := by simp [bytesOfWord]

theorem bytesOfWord_getElem {v : Word} {n j : Nat} (h : j < (bytesOfWord v n).length) :
    (bytesOfWord v n)[j] = v.extractLsb' (8 * j) 8 := by simp [bytesOfWord]

/-- Byte `j` of a little-endian number (rule R61). -/
theorem extractLsb'_wordOfBytes (bs : List Byte) :
    ∀ j (h : j < bs.length), j < 4 → (wordOfBytes bs).extractLsb' (8 * j) 8 = bs[j] := by
  induction bs with
  | nil => intro j h; simp at h
  | cons b bs ih =>
    intro j h hj
    apply BitVec.eq_of_getLsbD_eq
    intro i hi
    rw [wordOfBytes, BitVec.getLsbD_extractLsb', BitVec.getLsbD_or, BitVec.getLsbD_shiftLeft, BitVec.getLsbD_setWidth]
    cases j with
    | zero => simp [hi, show i < 32 by omega]
    | succ j =>
      have e := congrArg (fun x => x.getLsbD i) (ih j (by simpa using h) (by omega))
      simp only [BitVec.getLsbD_extractLsb', hi, decide_true, Bool.true_and] at e
      rw [show 8 * (j + 1) + i - 8 = 8 * j + i by omega, e]
      simp only [hi, decide_true, Bool.true_and, show 8 * (j + 1) + i < 32 by omega,
        show ¬ 8 * (j + 1) + i < 8 by omega, decide_false, Bool.not_false, List.getElem_cons_succ]
      rw [BitVec.getLsbD_of_ge b _ (by omega)]; simp

theorem wordOfBytes_lt (bs : List Byte) : (wordOfBytes bs).toNat < 2 ^ (8 * bs.length) := by
  induction bs with
  | nil => simp [wordOfBytes]
  | cons b bs ih =>
    rw [wordOfBytes, BitVec.toNat_or, BitVec.toNat_shiftLeft, BitVec.toNat_setWidth]
    apply Nat.or_lt_two_pow
    · refine lt_of_le_of_lt (Nat.mod_le _ _) ?_
      rw [Nat.shiftLeft_eq, List.length_cons, show 8 * (bs.length + 1) = 8 * bs.length + 8 by ring, pow_add]
      exact Nat.mul_lt_mul_of_pos_right ih (by norm_num)
    · exact lt_of_lt_of_le (lt_of_le_of_lt (Nat.mod_le _ _) b.isLt) (Nat.pow_le_pow_right (by norm_num) (by simp))

theorem getLsbD_byteOfBits (f : Nat → Bool) (i : Nat) : (byteOfBits f).getLsbD i = (decide (i < 8) && f i) := by
  unfold byteOfBits
  by_cases h : i < 8
  · rw [BitVec.getLsbD_eq_getElem h, BitVec.getElem_ofFnLE]; simp [h]
  · simp [h, BitVec.getLsbD_of_ge _ _ (by omega : 8 ≤ i)]

/-! ### Scrambling -/

theorem clip_inside (e : Extent) (n : Nat) : (e.clip n).len = 0 ∨ (e.clip n).base + (e.clip n).len ≤ n := by
  simp only [Extent.clip]; omega

theorem wf_scramble {s : State} (h : s.mem.wf) (e : Extent) : (s.scramble e).mem.wf := wf_writeBytes h _ _

theorem inside_scramble {s : State} (h : s.mem.inside s.params.memBytes) (e : Extent) :
    (s.scramble e).mem.inside s.params.memBytes := by
  refine inside_writeBytes h _ _ ?_
  rcases clip_inside e s.params.memBytes with hz | hz
  · left; rw [hz]; rfl
  · right; simpa using hz

theorem wf_scrambleAll {s : State} (h : s.mem.wf) (es : List Extent) : (s.scrambleAll es).mem.wf := by
  induction es generalizing s with
  | nil => exact h
  | cons e es ih => exact ih (wf_scramble h e)

theorem inside_scrambleAll {s : State} (h : s.mem.inside s.params.memBytes) (es : List Extent) :
    (s.scrambleAll es).mem.inside s.params.memBytes := by
  induction es generalizing s with
  | nil => exact h
  | cons e es ih => exact ih (s := s.scramble e) (inside_scramble h e)

/-- Scrambling one extent leaves every byte outside it. -/
theorem readByte_scramble_outside {s : State} {e : Extent} {x : Nat} (h : e.contains x = false) :
    (s.scramble e).mem.readByte x = s.mem.readByte x := by
  refine readByte_writeBytes_outside ?_
  simp only [freeBytes_length, Extent.clip, Extent.contains, Bool.and_eq_false_iff, decide_eq_false_iff_not] at *
  omega

/-- Scrambling extents leaves every byte outside all of them. -/
theorem readByte_scrambleAll_outside {s : State} {es : List Extent} {x : Nat}
    (h : es.any (·.contains x) = false) : (s.scrambleAll es).mem.readByte x = s.mem.readByte x := by
  induction es generalizing s with
  | nil => rfl
  | cons e es ih =>
    simp only [List.any_cons, Bool.or_eq_false_iff] at h
    exact (ih (s := s.scramble e) h.2).trans (readByte_scramble_outside h.1)

end Sys2Proof.Machine
end

