-- ==== Sys2Proof/Laws/Operands.lean ====
section
/-! SUPPORT. The checks of the commands, read as the plain arithmetic of `Sys2Proof/Safety.lean`. -/

namespace Sys2Proof.Machine

/-! ### The first check that holds -/

@[simp] theorem firstError_nil : firstError [] = none := rfl

theorem firstError_cons (b : Bool) (e : ErrCode) (cs : List (Bool × ErrCode)) :
    firstError ((b, e) :: cs) = if b then some e else firstError cs := by
  cases b <;> rfl

/-- No check holds. -/
theorem firstError_eq_none_iff (cs : List (Bool × ErrCode)) : firstError cs = none ↔ ∀ x ∈ cs, x.1 = false := by
  simp [firstError]

/-! ### Extents -/

theorem inBounds_iff (a l n : Nat) : (Extent.inBounds ⟨a, l⟩ n = true) ↔ InBounds a l n := by
  simp [Extent.inBounds, InBounds]

theorem overlaps_iff (a l b m : Nat) : (Extent.overlaps ⟨a, l⟩ ⟨b, m⟩ = true) ↔ Overlap a l b m := by
  simp [Extent.overlaps, Overlap, and_assoc]

theorem overlaps_eq_false_iff (a l b m : Nat) :
    (Extent.overlaps ⟨a, l⟩ ⟨b, m⟩ = false) ↔ ¬ Overlap a l b m := by
  rw [← overlaps_iff, Bool.not_eq_true]

theorem contains_iff (a l x : Nat) : (Extent.contains ⟨a, l⟩ x = true) ↔ a ≤ x ∧ x < a + l := by
  simp [Extent.contains]

/-! ### The converter's checks -/

theorem cscBadArgument_iff (src dst : SurfNum) (range : Bool) (c : ConfigRegs) :
    (cscBadArgument src dst range c = true) ↔ CscBadArgument src dst range c := by
  cases range <;>
    simp [cscBadArgument, CscBadArgument, surfaceExtent, overlaps_iff, cscFirst, cscCount, and_assoc, or_assoc]

theorem cscOutOfBounds_iff (src dst : SurfNum) (c : ConfigRegs) (n : Nat) :
    (cscOutOfBounds src dst c n = true) ↔ ¬ CscInBounds src dst c n := by
  simp only [cscOutOfBounds, CscInBounds, surfaceExtent, ← inBounds_iff, Bool.or_eq_true, Bool.not_eq_true']
  simp only [← Bool.not_eq_true]
  tauto

/-- The registers are well formed exactly when no argument check fails and the surfaces are in bounds. -/
theorem cscWellFormed_iff (src dst : SurfNum) (range : Bool) (c : ConfigRegs) (n : Nat) :
    CscWellFormed src dst range c n ↔ ¬ CscBadArgument src dst range c ∧ CscInBounds src dst c n := by
  unfold CscWellFormed CscBadArgument
  cases range <;> simp <;> tauto

theorem cscError_eq_none_iff (src dst : SurfNum) (range : Bool) (c : ConfigRegs) (n : Nat) :
    cscError src dst range c n = none ↔ CscWellFormed src dst range c n := by
  rw [cscWellFormed_iff, ← cscBadArgument_iff, cscError, firstError_cons, firstError_cons]
  have := cscOutOfBounds_iff src dst c n
  by_cases h1 : cscBadArgument src dst range c <;> by_cases h2 : cscOutOfBounds src dst c n <;> simp_all

theorem cscError_of_bad {src dst : SurfNum} {range : Bool} {c : ConfigRegs} {n : Nat}
    (h : CscBadArgument src dst range c) : cscError src dst range c n = some .invalidArgument := by
  rw [cscError, firstError_cons, if_pos ((cscBadArgument_iff ..).2 h)]

theorem cscError_of_outOfBounds {src dst : SurfNum} {range : Bool} {c : ConfigRegs} {n : Nat}
    (h1 : ¬ CscBadArgument src dst range c) (h2 : ¬ CscInBounds src dst c n) :
    cscError src dst range c n = some .outOfBounds := by
  rw [cscError, firstError_cons, if_neg (fun h => h1 ((cscBadArgument_iff ..).1 h)), firstError_cons,
    if_pos ((cscOutOfBounds_iff ..).2 h2)]

/-- The range a well-formed conversion covers lies inside both surfaces. -/
theorem cscRange_le {src dst : SurfNum} {range : Bool} {c : ConfigRegs} {n : Nat}
    (h : CscWellFormed src dst range c n) :
    cscFirst range c + cscCount src range c ≤ (c.surf src).count.toNat
    ∧ cscFirst range c + cscCount src range c ≤ (c.surf dst).count.toNat := by
  obtain ⟨h0, h1, -, -⟩ := h
  cases range with
  | false => have := h0 rfl; simp [cscFirst, cscCount, ← this]
  | true => simpa [cscFirst, cscCount] using h1 rfl

/-! ### The packer's checks -/

theorem badK_iff (c : ConfigRegs) : (badK c = true) ↔ (c.kNat = 0 ∨ 256 < c.kNat) := by
  rw [badK, Bool.or_eq_true, beq_iff_eq, decide_eq_true_iff, show Config.kMax = 256 from rfl]

theorem badK_eq_false_iff (c : ConfigRegs) : (badK c = false) ↔ (1 ≤ c.kNat ∧ c.kNat ≤ 256) := by
  rw [← Bool.not_eq_true, badK_iff]; omega

theorem badSize_iff (c : ConfigRegs) : (badSize c = true) ↔ ¬ c.outSize.toNat = packedSize c.kNat c.npix := by
  simp [badSize]

theorem badSize_eq_false_iff (c : ConfigRegs) : (badSize c = false) ↔ c.outSize.toNat = packedSize c.kNat c.npix := by
  simp [badSize]

theorem unpackError_eq_none_iff (c : ConfigRegs) (n : Nat) :
    unpackError c n = none ↔ UnpackWellFormed c n := by
  simp only [unpackError, firstError_eq_none_iff, List.forall_mem_cons, List.not_mem_nil, false_implies, implies_true,
    and_true, badK_eq_false_iff, badSize_eq_false_iff, outExtent, idxExtent, overlaps_eq_false_iff,
    Bool.or_eq_false_iff, Bool.not_eq_false', inBounds_iff, UnpackWellFormed, and_assoc]

theorem packError_eq_none_iff (pal : SurfNum) (c : ConfigRegs) (n : Nat) :
    packError pal c n = none ↔ PackWellFormed pal c n := by
  simp only [packError, firstError_eq_none_iff, List.forall_mem_cons, List.not_mem_nil, false_implies, implies_true,
    and_true, badK_eq_false_iff, badSize_eq_false_iff, outExtent, idxExtent, palExtent, overlaps_eq_false_iff,
    Bool.or_eq_false_iff, Bool.not_eq_false', inBounds_iff, bne_eq_false_iff_eq, PackWellFormed, and_assoc]

/-- PACK's register checks report the code of the first check of rule R150 that holds. -/
theorem packError_of_check {pal : SurfNum} {c : ConfigRegs} {n : Nat} {e : Option ErrCode} (h : PackCheck pal c n e) :
    packError pal c n = e := by
  obtain ⟨h1, h2, h3, h4, h5, h6, h7⟩ := h
  simp only [packError, firstError_cons, firstError_nil]
  split_ifs with a1 a2 a3 a4 a5 a6
  all_goals
    simp only [badK_iff, Bool.or_eq_true, outExtent, idxExtent, palExtent, overlaps_iff, bne_iff_ne, ne_eq,
      badSize_iff, Bool.not_eq_true', ← Bool.not_eq_true, inBounds_iff, not_not, not_or] at *
  · exact (h1 a1).symm
  · exact (h2 (by tauto) a2).symm
  · exact (h3 (by tauto) a2 a3).symm
  · exact (h4 (by tauto) a2 (by tauto) (by tauto)).symm
  · exact (h5 (by tauto) a2 (by tauto) (by tauto) a5).symm
  · exact (h6 (by tauto) a2 (by tauto) (by tauto) a5 a6).symm
  · exact (h7 (by tauto) a2 (by tauto) (by tauto) a5 a6).symm

/-- UNPACK's register checks report the code of the first of its checks of rule R150 that holds. -/
theorem unpackError_of_check {c : ConfigRegs} {n : Nat} {e : Option ErrCode} (h : UnpackCheck c n e) :
    unpackError c n = e := by
  obtain ⟨h1, h3, h4, h6, h7⟩ := h
  simp only [unpackError, firstError_cons, firstError_nil]
  split_ifs with a1 a3 a4 a6
  all_goals
    simp only [badK_iff, Bool.or_eq_true, outExtent, idxExtent, overlaps_iff, badSize_iff,
      Bool.not_eq_true', ← Bool.not_eq_true, inBounds_iff, not_not, not_or] at *
  · exact (h1 a1).symm
  · exact (h3 (by tauto) a3).symm
  · exact (h4 (by tauto) a3 (by tauto)).symm
  · exact (h6 (by tauto) a3 (by tauto) a6).symm
  · exact (h7 (by tauto) a3 (by tauto) a6).symm

/-- The code PACK's register checks report is the first of rule R150's checks, in plain arithmetic. -/
theorem packCheck_packError (pal : SurfNum) (c : ConfigRegs) (n : Nat) : PackCheck pal c n (packError pal c n) := by
  have key : ∃ e, PackCheck pal c n e := by
    by_cases b1 : c.kNat = 0 ∨ 256 < c.kNat
    · exact ⟨some .invalidArgument, by refine ⟨?_, ?_, ?_, ?_, ?_, ?_, ?_⟩ <;> intros <;> first | rfl | contradiction⟩
    by_cases b2 : (c.surf pal).count.toNat = c.kNat
    swap
    · exact ⟨some .invalidArgument, by refine ⟨?_, ?_, ?_, ?_, ?_, ?_, ?_⟩ <;> intros <;> first | rfl | contradiction⟩
    by_cases b3 : Overlap c.outBase.toNat c.outSize.toNat c.idxBase.toNat c.npix
      ∨ Overlap c.outBase.toNat c.outSize.toNat (c.surf pal).base.toNat (3 * c.kNat)
    · exact ⟨some .invalidArgument, by refine ⟨?_, ?_, ?_, ?_, ?_, ?_, ?_⟩ <;> intros <;> first | rfl | contradiction⟩
    by_cases b4 : InBounds c.outBase.toNat c.outSize.toNat n ∧ InBounds c.idxBase.toNat c.npix n
      ∧ InBounds (c.surf pal).base.toNat (3 * c.kNat) n
    swap
    · exact ⟨some .outOfBounds, by refine ⟨?_, ?_, ?_, ?_, ?_, ?_, ?_⟩ <;> intros <;> first | rfl | contradiction⟩
    by_cases b5 : (c.surf pal).tag = .color
    swap
    · exact ⟨some .wrongDomain, by refine ⟨?_, ?_, ?_, ?_, ?_, ?_, ?_⟩ <;> intros <;> first | rfl | contradiction⟩
    by_cases b6 : c.outSize.toNat = packedSize c.kNat c.npix
    · exact ⟨none, by refine ⟨?_, ?_, ?_, ?_, ?_, ?_, ?_⟩ <;> intros <;> first | rfl | contradiction⟩
    · exact ⟨some .sizeMismatch, by refine ⟨?_, ?_, ?_, ?_, ?_, ?_, ?_⟩ <;> intros <;> first | rfl | contradiction⟩
  obtain ⟨e, h⟩ := key
  rw [packError_of_check h]; exact h

/-- The code UNPACK's register checks report is the first of its checks of rule R150, in plain arithmetic. -/
theorem unpackCheck_unpackError (c : ConfigRegs) (n : Nat) : UnpackCheck c n (unpackError c n) := by
  have key : ∃ e, UnpackCheck c n e := by
    by_cases b1 : c.kNat = 0 ∨ 256 < c.kNat
    · exact ⟨some .invalidArgument, by refine ⟨?_, ?_, ?_, ?_, ?_⟩ <;> intros <;> first | rfl | contradiction⟩
    by_cases b3 : Overlap c.outBase.toNat c.outSize.toNat c.idxBase.toNat c.npix
    · exact ⟨some .invalidArgument, by refine ⟨?_, ?_, ?_, ?_, ?_⟩ <;> intros <;> first | rfl | contradiction⟩
    by_cases b4 : InBounds c.outBase.toNat c.outSize.toNat n ∧ InBounds c.idxBase.toNat c.npix n
    swap
    · exact ⟨some .outOfBounds, by refine ⟨?_, ?_, ?_, ?_, ?_⟩ <;> intros <;> first | rfl | contradiction⟩
    by_cases b6 : c.outSize.toNat = packedSize c.kNat c.npix
    · exact ⟨none, by refine ⟨?_, ?_, ?_, ?_, ?_⟩ <;> intros <;> first | rfl | contradiction⟩
    · exact ⟨some .sizeMismatch, by refine ⟨?_, ?_, ?_, ?_, ?_⟩ <;> intros <;> first | rfl | contradiction⟩
  obtain ⟨e, h⟩ := key
  rw [unpackError_of_check h]; exact h

/-! ### Sizes -/

theorem ceilDiv_eight (a : Nat) : ceilDiv a 8 = (a + 7) / 8 := rfl

end Sys2Proof.Machine
end

