-- ==== Sys2Proof/Laws/Exec.lean ====
section
/-! SUPPORT. What a command's completion can do, said once: every command answers a next state, the completion of its result,
and that result writes only inside the buffer memory. -/

namespace Sys2Proof.Machine

/-- The result a command's completion step performs (rule R186). -/
def commandResult (i : Instr) (s : State) : Result :=
  match i with
  | .cscFwd src dst range => cscResult fwdPixel .chroma src dst range s
  | .cscInv src dst range => cscResult invPixel .color src dst range s
  | .pack pal => packResult pal s
  | .unpack => unpackResult s

/-- Every command completes. -/
theorem exec_eq (i : Instr) (s : State) : exec i s = .next (s.complete (commandResult i s)) := by cases i <;> rfl

theorem exec_next_iff {i : Instr} {s t : State} : exec i s = .next t ↔ t = s.complete (commandResult i s) := by
  rw [exec_eq, Host.Outcome.next.injEq, eq_comm]

/-! ### Blocks of equal length -/

theorem length_flatMap_range {α : Type} (f : Nat → List α) (c n : Nat) (h : ∀ i, (f i).length = c) :
    ((List.range n).flatMap f).length = c * n := by
  induction n with
  | zero => rfl
  | succ n ih => simp [List.range_succ, ih, h, Nat.mul_succ]

/-- Element `j` of block `i` of a list made of blocks of length `c`. -/
theorem getElem?_flatMap_range {α : Type} (f : Nat → List α) {c n i j : Nat} (h : ∀ i, (f i).length = c)
    (hi : i < n) (hj : j < c) : ((List.range n).flatMap f)[c * i + j]? = (f i)[j]? := by
  induction n with
  | zero => omega
  | succ n ih =>
    rw [List.range_succ, List.flatMap_append, List.flatMap_singleton]
    by_cases hin : i < n
    · have hlt : c * i + j < c * n := by
        calc c * i + j < c * i + c := by omega
          _ = c * (i + 1) := by ring
          _ ≤ c * n := Nat.mul_le_mul_left c hin
      rw [List.getElem?_append_left (by rw [length_flatMap_range f c n h]; exact hlt), ih hin]
    · obtain rfl : i = n := by omega
      rw [List.getElem?_append_right (by rw [length_flatMap_range f c i h]; omega), length_flatMap_range f c i h,
        Nat.add_sub_cancel_left]

/-! ### The converter's result -/

@[simp] theorem fwdPixel_length (p : Params) (d : Nat) (b g r : Byte) : (fwdPixel p d b g r).length = 3 := rfl

@[simp] theorem invPixel_length (p : Params) (d : Nat) (y cb cr : Byte) : (invPixel p d y cb cr).length = 3 := rfl

theorem cscBytes_length {pixel : Nat → Byte → Byte → Byte → List Byte} (h : ∀ d x y z, (pixel d x y z).length = 3)
    (m0 : Memory) (sa d n : Nat) : (cscBytes pixel m0 sa d n).length = 3 * n :=
  length_flatMap_range _ 3 n fun _ => h _ _ _ _

theorem cscBytes_getElem? {pixel : Nat → Byte → Byte → Byte → List Byte}
    (h : ∀ d x y z, (pixel d x y z).length = 3) (m0 : Memory) (sa d : Nat) {n i j : Nat} (hi : i < n) (hj : j < 3) :
    (cscBytes pixel m0 sa d n)[3 * i + j]? =
      (pixel (d + 3 * i) (m0.readByte (sa + 3 * i)) (m0.readByte (sa + 3 * i + 1))
        (m0.readByte (sa + 3 * i + 2)))[j]? :=
  getElem?_flatMap_range _ (fun _ => h _ _ _ _) hi hj

theorem cscResult_of_error {pixel : Params → Nat → Byte → Byte → Byte → List Byte} {tag : Tag} {src dst : SurfNum}
    {range : Bool} {s : State} {e : ErrCode} (h : cscError src dst range s.operands s.params.memBytes = some e) :
    cscResult pixel tag src dst range s = .fail e := by
  simp only [cscResult, h]

theorem cscResult_of_wellFormed {pixel : Params → Nat → Byte → Byte → Byte → List Byte} {tag : Tag} {src dst : SurfNum}
    {range : Bool} {s : State} (h : CscWellFormed src dst range s.operands s.params.memBytes) :
    cscResult pixel tag src dst range s =
      { err   := .ok
        info  := none
        base  := (s.operands.surf dst).base.toNat + 3 * cscFirst range s.operands
        bytes := cscBytes (pixel s.params) s.mem
          ((s.operands.surf src).base.toNat + 3 * cscFirst range s.operands) s.draws (cscCount src range s.operands)
        tag   := some (dst, tag)
        drawn := cscDrawn s.params.cscArith (cscCount src range s.operands) } := by
  simp only [cscResult, (cscError_eq_none_iff ..).2 h]

/-! ### The packer's results -/

@[simp] theorem paletteBytes_length (m0 : Memory) (base k : Nat) : (paletteBytes m0 base k).length = 2 * k :=
  length_flatMap_range _ 2 k fun _ => rfl

@[simp] theorem indexBytes_length (m0 : Memory) (idx w npix : Nat) :
    (indexBytes m0 idx w npix).length = ceilDiv (npix * w) 8 := by simp [indexBytes]

theorem firstBadIndex_eq_some {k npix p : Nat} {index : Nat → Byte} :
    firstBadIndex k npix index = some p ↔
      k ≤ (index p).toNat ∧ p < npix ∧ ∀ q, q < p → (index q).toNat < k := by
  simp [firstBadIndex, List.find?_range_eq_some]

theorem firstBadIndex_eq_none {k npix : Nat} {index : Nat → Byte} :
    firstBadIndex k npix index = none ↔ ∀ p, p < npix → (index p).toNat < k := by
  simp [firstBadIndex]

theorem packResult_of_error {pal : SurfNum} {s : State} {e : ErrCode}
    (h : packError pal s.operands s.params.memBytes = some e) : packResult pal s = .fail e := by
  simp only [packResult, h]

theorem unpackResult_of_error {s : State} {e : ErrCode} (h : unpackError s.operands s.params.memBytes = some e) :
    unpackResult s = .fail e := by
  simp only [unpackResult, h]

theorem packResult_of_badIndex {pal : SurfNum} {s : State} {p : Nat}
    (h : PackWellFormed pal s.operands s.params.memBytes)
    (hp : firstBadIndex s.operands.kNat s.operands.npix
      (fun p => s.mem.readByte (s.operands.idxBase.toNat + p)) = some p) :
    packResult pal s = indexError p s.draws (outExtent s.operands) := by
  simp only [packResult, (packError_eq_none_iff ..).2 h, hp]

theorem packResult_of_ok {pal : SurfNum} {s : State} (h : PackWellFormed pal s.operands s.params.memBytes)
    (hp : firstBadIndex s.operands.kNat s.operands.npix
      (fun p => s.mem.readByte (s.operands.idxBase.toNat + p)) = none) :
    packResult pal s =
      { err   := .ok
        info  := none
        base  := s.operands.outBase.toNat
        bytes := paletteBytes s.mem (s.operands.surf pal).base.toNat s.operands.kNat
                   ++ indexBytes s.mem s.operands.idxBase.toNat (bpp s.operands.kNat) s.operands.npix
        tag   := none
        drawn := 0 } := by
  simp only [packResult, (packError_eq_none_iff ..).2 h, hp]

theorem unpackResult_of_badIndex {s : State} {p : Nat} (h : UnpackWellFormed s.operands s.params.memBytes)
    (hp : firstBadIndex s.operands.kNat s.operands.npix (unpackIndexAt s.operands s.mem) = some p) :
    unpackResult s = indexError p s.draws (idxExtent s.operands) := by
  simp only [unpackResult, (unpackError_eq_none_iff ..).2 h, hp]

theorem unpackResult_of_ok {s : State} (h : UnpackWellFormed s.operands s.params.memBytes)
    (hp : firstBadIndex s.operands.kNat s.operands.npix (unpackIndexAt s.operands s.mem) = none) :
    unpackResult s =
      { err   := .ok
        info  := none
        base  := s.operands.idxBase.toNat
        bytes := (List.range s.operands.npix).map (unpackIndexAt s.operands s.mem)
        tag   := none
        drawn := 0 } := by
  simp only [unpackResult, (unpackError_eq_none_iff ..).2 h, hp]

/-! ### Every result, said once -/

/-- What a command's result can be: a code raised before any write, an INDEX_OUT_OF_RANGE that draws the whole write
extent, or an OK that fills it. -/
theorem commandResult_cases (i : Instr) (s : State) :
    (∃ e, e ≠ .ok ∧ e ≠ .indexOutOfRange ∧ commandResult i s = .fail e)
    ∨ (∃ p, (commandResult i s = indexError p s.draws (writeExtent i s.operands))
        ∧ (writeExtent i s.operands).inBounds s.params.memBytes = true)
    ∨ ((commandResult i s).err = .ok ∧ (commandResult i s).info = none
        ∧ (commandResult i s).base = (writeExtent i s.operands).base
        ∧ (commandResult i s).bytes.length = (writeExtent i s.operands).len
        ∧ (writeExtent i s.operands).inBounds s.params.memBytes = true) := by
  have csc : ∀ (pixel : Params → Nat → Byte → Byte → Byte → List Byte) (tag : Tag) (src dst : SurfNum) (range : Bool),
      (∀ p d x y z, (pixel p d x y z).length = 3) →
      (∃ e, e ≠ .ok ∧ e ≠ .indexOutOfRange ∧ cscResult pixel tag src dst range s = .fail e)
      ∨ ((cscResult pixel tag src dst range s).err = .ok ∧ (cscResult pixel tag src dst range s).info = none
        ∧ (cscResult pixel tag src dst range s).base = (s.operands.surf dst).base.toNat + 3 * cscFirst range s.operands
        ∧ (cscResult pixel tag src dst range s).bytes.length = 3 * cscCount src range s.operands
        ∧ InBounds ((s.operands.surf dst).base.toNat + 3 * cscFirst range s.operands)
            (3 * cscCount src range s.operands) s.params.memBytes) := by
    intro pixel tag src dst range hlen
    by_cases h : CscWellFormed src dst range s.operands s.params.memBytes
    · right
      rw [cscResult_of_wellFormed h]
      refine ⟨rfl, rfl, rfl, cscBytes_length (hlen s.params) .., ?_⟩
      have hr := cscRange_le h
      obtain ⟨-, -, -, -, hb⟩ := h
      simp only [InBounds] at hb ⊢
      omega
    · left
      rw [cscWellFormed_iff] at h
      by_cases hb : CscBadArgument src dst range s.operands
      · exact ⟨_, by decide, by decide, cscResult_of_error (cscError_of_bad hb)⟩
      · exact ⟨_, by decide, by decide, cscResult_of_error (cscError_of_outOfBounds hb fun hi => h ⟨hb, hi⟩)⟩
  cases i with
  | cscFwd src dst range =>
    rcases csc fwdPixel .chroma src dst range (fun _ _ _ _ _ => rfl) with h | ⟨h1, h2, h3, h4, h5⟩
    · exact .inl h
    · exact .inr (.inr ⟨h1, h2, h3, h4, (inBounds_iff ..).2 h5⟩)
  | cscInv src dst range =>
    rcases csc invPixel .color src dst range (fun _ _ _ _ _ => rfl) with h | ⟨h1, h2, h3, h4, h5⟩
    · exact .inl h
    · exact .inr (.inr ⟨h1, h2, h3, h4, (inBounds_iff ..).2 h5⟩)
  | pack pal =>
    by_cases h : PackWellFormed pal s.operands s.params.memBytes
    · have hout := h.2.2.2.2.1
      have hsz := h.2.2.2.2.2.2.2.2
      cases hb : firstBadIndex s.operands.kNat s.operands.npix
          (fun p => s.mem.readByte (s.operands.idxBase.toNat + p)) with
      | some p => exact .inr (.inl ⟨p, packResult_of_badIndex h hb, (inBounds_iff ..).2 hout⟩)
      | none =>
        refine .inr (.inr ?_)
        rw [show commandResult (.pack pal) s = _ from packResult_of_ok h hb]
        refine ⟨rfl, rfl, rfl, ?_, (inBounds_iff ..).2 hout⟩
        simp [writeExtent, outExtent, hsz, packedSize]
    · left
      cases he : packError pal s.operands s.params.memBytes with
      | none => exact absurd ((packError_eq_none_iff ..).1 he) h
      | some e =>
        refine ⟨e, ?_, ?_, packResult_of_error he⟩ <;>
          · rintro rfl
            simp only [packError, firstError_cons, firstError_nil] at he
            split_ifs at he <;> simp at he
  | unpack =>
    by_cases h : UnpackWellFormed s.operands s.params.memBytes
    · have hidx := h.2.2.2.1
      cases hb : firstBadIndex s.operands.kNat s.operands.npix (unpackIndexAt s.operands s.mem) with
      | some p => exact .inr (.inl ⟨p, unpackResult_of_badIndex h hb, (inBounds_iff ..).2 hidx⟩)
      | none =>
        refine .inr (.inr ?_)
        rw [show commandResult .unpack s = _ from unpackResult_of_ok h hb]
        exact ⟨rfl, rfl, rfl, by simp [writeExtent, idxExtent], (inBounds_iff ..).2 hidx⟩
    · left
      cases he : unpackError s.operands s.params.memBytes with
      | none => exact absurd ((unpackError_eq_none_iff ..).1 he) h
      | some e =>
        refine ⟨e, ?_, ?_, unpackResult_of_error he⟩ <;>
          · rintro rfl
            simp only [unpackError, firstError_cons, firstError_nil] at he
            split_ifs at he <;> simp at he

/-- A result writes nothing, or writes inside the buffer memory. -/
theorem commandResult_inside (i : Instr) (s : State) :
    (commandResult i s).bytes = [] ∨
      (commandResult i s).base + (commandResult i s).bytes.length ≤ s.params.memBytes := by
  have key : ∀ e : Extent, e.inBounds s.params.memBytes = true → e.len = 0 ∨ e.base + e.len ≤ s.params.memBytes :=
    fun e h => by simpa [Extent.inBounds] using h
  rcases commandResult_cases i s with ⟨e, -, -, h⟩ | ⟨p, h, hb⟩ | ⟨-, -, h1, h2, hb⟩
  · left; rw [h]; rfl
  · rcases key _ hb with hz | hz
    · left; rw [h]; simp [indexError, hz, freeBytes]
    · right; rw [h]; simpa [indexError] using hz
  · rcases key _ hb with hz | hz
    · left; exact List.eq_nil_of_length_eq_zero (by rw [h2, hz])
    · right; rw [h1, h2]; exact hz

end Sys2Proof.Machine
end

