-- ==== Sys2Proof/Laws/Step.lean ====
section
/-! SUPPORT. What one step can do, said once for the engine's moves, the host's moves and the step itself. -/

namespace Sys2Proof.Machine

/-! ### The engine -/

/-- The result of the pending command, legal or not (rules R84, R181, R186). -/
def pendingResult (p : Pending) (s : State) : Result :=
  match decode p.word with
  | some i => commandResult i s
  | none => .fail .illegalCommand

theorem engineMove_enabled {s : State} {p : Pending} (hr : s.resetAsserted = false) (hp : s.pending = some p) :
    engineMove s = .next (s.complete (pendingResult p s)) := by
  cases hd : decode p.word with
  | some i => simp only [engineMove, hr, hp, hd, pendingResult, exec_eq]
  | none => simp only [engineMove, hr, hp, hd, pendingResult, completeIllegal]

theorem engineMove_idle {s : State} (h : s.pending = none) : engineMove s = .next s := by
  cases hr : s.resetAsserted <;> simp only [engineMove, hr, h]

theorem engineMove_reset {s : State} (h : s.resetAsserted = true) : engineMove s = .next s := by
  simp only [engineMove, h]

/-- The engine either stays idle or completes the pending command. -/
theorem engineMove_cases (s : State) :
    (engineMove s = .next s ∧ (s.pending = none ∨ s.resetAsserted = true))
    ∨ (∃ p, s.resetAsserted = false ∧ s.pending = some p
        ∧ engineMove s = .next (s.complete (pendingResult p s))) := by
  cases hr : s.resetAsserted with
  | true => exact .inl ⟨engineMove_reset hr, .inr rfl⟩
  | false =>
    cases hp : s.pending with
    | none => exact .inl ⟨engineMove_idle hp, .inl rfl⟩
    | some p => exact .inr ⟨p, rfl, rfl, engineMove_enabled hr hp⟩

/-! ### The host -/

theorem hostMove_regWrite_ok {off width : Nat} (h : regAccessOk off width = true) (v : Word) (s : State) :
    hostMove (.regWrite off width v) s = .next (s.writeReg (Reg.ofIndex (off / 4)) v) := by simp [hostMove, h]

theorem hostMove_regRead_ok {off width : Nat} (h : regAccessOk off width = true) (s : State) :
    hostMove (.regRead off width) s = .next { s with readData := some (s.readReg (Reg.ofIndex (off / 4))) } := by
  simp [hostMove, h]

theorem hostMove_memWrite_ok {a width : Nat} {s : State} (h : bufferWidthOk width = true)
    (ha : a + width ≤ s.params.memBytes) (v : Word) :
    hostMove (.memWrite a width v) s = .next (s.hostWrite a width v) := by
  simp [hostMove, h, Nat.not_lt.2 ha]

theorem hostMove_memRead_ok {a width : Nat} {s : State} (h : bufferWidthOk width = true)
    (ha : a + width ≤ s.params.memBytes) : hostMove (.memRead a width) s = .next (s.hostRead a width) := by
  simp [hostMove, h, Nat.not_lt.2 ha]

/-- What a host move that goes on can do. -/
theorem hostMove_cases {op : HostOp} {s t : State} (h : hostMove op s = .next t) :
    (∃ off width v, op = .regWrite off width v ∧ regAccessOk off width = true
        ∧ t = s.writeReg (Reg.ofIndex (off / 4)) v)
    ∨ (∃ off width, op = .regRead off width ∧ regAccessOk off width = true
        ∧ t = { s with readData := some (s.readReg (Reg.ofIndex (off / 4))) })
    ∨ (∃ a width v, op = .memWrite a width v ∧ bufferWidthOk width = true ∧ a + width ≤ s.params.memBytes
        ∧ t = s.hostWrite a width v)
    ∨ (∃ a width, op = .memRead a width ∧ bufferWidthOk width = true ∧ a + width ≤ s.params.memBytes
        ∧ t = s.hostRead a width)
    ∨ (op = .resetLine true ∧ t = s.assertReset)
    ∨ (op = .resetLine false ∧ t = { s with resetAsserted := false }) := by
  cases op with
  | regWrite off width v =>
    simp only [hostMove] at h
    split at h
    · rename_i hok; cases h; exact .inl ⟨off, width, v, rfl, hok, rfl⟩
    · cases h
  | regRead off width =>
    simp only [hostMove] at h
    split at h
    · rename_i hok; cases h; exact .inr (.inl ⟨off, width, rfl, hok, rfl⟩)
    · cases h
  | memWrite a width v =>
    simp only [hostMove] at h
    split at h
    · cases h
    · rename_i hw
      split at h
      · cases h
      · rename_i ha; cases h
        exact .inr (.inr (.inl ⟨a, width, v, rfl, by simpa using hw, Nat.not_lt.1 ha, rfl⟩))
  | memRead a width =>
    simp only [hostMove] at h
    split at h
    · cases h
    · rename_i hw
      split at h
      · cases h
      · rename_i ha; cases h
        exact .inr (.inr (.inr (.inl ⟨a, width, rfl, by simpa using hw, Nat.not_lt.1 ha, rfl⟩)))
  | resetLine asserted =>
    cases asserted with
    | true => cases h; exact .inr (.inr (.inr (.inr (.inl ⟨rfl, rfl⟩))))
    | false => cases h; exact .inr (.inr (.inr (.inr (.inr ⟨rfl, rfl⟩))))

theorem hostMove_never_faults (op : HostOp) (s : State) (f : Fault) : hostMove op s ≠ .fault f := nomatch f

/-- What a register write can change (rules R23 to R27, R40). -/
theorem writeReg_cases (reg : Reg) (v : Word) (s : State) :
    s.writeReg reg v = s
    ∨ (reg = .status ∧ s.writeReg reg v = s.acknowledge v)
    ∨ (reg = .irqEn ∧ s.writeReg reg v = { s with doneIe := v.getLsbD 0 })
    ∨ (s.busy = true ∧ s.writeReg reg v = { s with wbusy := true })
    ∨ (reg = .cmd ∧ s.busy = false ∧ s.writeReg reg v = s.startCommand v)
    ∨ (s.busy = false ∧ s.writeReg reg v = { s with regs := s.regs.write reg v }) := by
  cases hb : s.busy <;> cases reg <;> simp [State.writeReg, hb]

/-! ### Buffer accesses -/

theorem hostWrite_of_idle {s : State} (h : s.pending = none) (a width : Nat) (v : Word) :
    s.hostWrite a width v = { s with mem := s.mem.writeBytes a (bytesOfWord v width) } := by
  simp only [State.hostWrite, h]

theorem hostWrite_of_clean {s : State} {a width : Nat} (h : s.races a width = false) (v : Word) :
    s.hostWrite a width v = { s with mem := s.mem.writeBytes a (bytesOfWord v width) } := by
  cases hp : s.pending <;> simp [State.hostWrite, hp, h]

theorem hostWrite_of_race {s : State} {p : Pending} {a width : Nat} (hp : s.pending = some p)
    (h : s.races a width = true) (v : Word) :
    s.hostWrite a width v =
      { ({ s with mem := s.mem.writeBytes a (bytesOfWord v width) } : State).scrambleAll p.footprint
        with race := true } := by
  simp only [State.hostWrite, hp, h, if_true]

theorem races_of_idle {s : State} (h : s.pending = none) (a width : Nat) : s.races a width = false := by
  simp [State.races, State.inFootprint, h]

/-! ### The step -/

theorem step_nil {s : State} (h : s.schedule = []) : step s = engineMove s := by simp only [step, nextMove, h]

theorem step_engine {s : State} {rest : List Event} (h : s.schedule = .engine :: rest) :
    step s = engineMove { s with schedule := rest } := by simp only [step, nextMove, h]

theorem step_host {s : State} {op : HostOp} {rest : List Event} (h : s.schedule = .host op :: rest) :
    step s = hostMove op { s with schedule := rest } := by simp only [step, nextMove, h]

/-- A step is a move of the engine or of the host, from the state whose schedule has lost that move. -/
theorem step_cases (s : State) :
    ((s.schedule = [] ∨ ∃ rest, s.schedule = .engine :: rest)
        ∧ step s = engineMove { s with schedule := s.schedule.tail })
    ∨ (∃ op rest, s.schedule = .host op :: rest ∧ step s = hostMove op { s with schedule := s.schedule.tail }) := by
  rcases hs : s.schedule with - | ⟨e, rest⟩
  · refine .inl ⟨.inl rfl, ?_⟩
    rw [step_nil hs]
    congr 1
    cases s; simp_all
  · cases e with
    | engine => exact .inl ⟨.inr ⟨rest, rfl⟩, step_engine hs⟩
    | host op => exact .inr ⟨op, rest, rfl, step_host hs⟩

/-- A step that the engine makes is the engine's move. -/
theorem step_engineNext {s : State} (h : s.EngineNext) :
    step s = engineMove { s with schedule := s.schedule.tail } := by
  rcases step_cases s with ⟨-, h'⟩ | ⟨op, rest, h1, -⟩
  · exact h'
  · rcases h with h | ⟨r, h⟩ <;> simp [h] at h1

/-! ### Runs -/

theorem core_run_zero (s : State) : Sys2Proof.core.run 0 s = .next s := rfl

theorem core_run_succ {s t : State} (h : step s = .next t) (n : Nat) :
    Sys2Proof.core.run (n + 1) s = Sys2Proof.core.run n t := by
  have h' : Sys2Proof.core.step s = .next t := h
  exact (Host.Core.run.eq_2 ..).trans (by rw [h'])

end Sys2Proof.Machine
end

