-- ==== Sys2Proof/Laws/HostAccess.lean ====
section
/-! SUPPORT. The registers as the host sees them: the fields of STATUS, and what each host access leaves unchanged. -/

namespace Sys2Proof.Machine

/-- ERR stands in bits 7:4 of STATUS. -/
theorem statusWord_err (s : State) : s.statusWord.extractLsb' 4 4 = s.err.code := by
  unfold State.statusWord
  cases s.err <;> cases s.wbusy <;> cases s.done <;> cases s.busy <;> rfl

/-- BUSY stands in bit 0 of STATUS. -/
theorem statusWord_busy (s : State) : s.statusWord.getLsbD 0 = s.busy := by
  unfold State.statusWord
  cases s.err <;> cases s.wbusy <;> cases s.done <;> cases s.busy <;> rfl

theorem statusWord_congr {s t : State} (h1 : t.err = s.err) (h2 : t.wbusy = s.wbusy) (h3 : t.done = s.done)
    (h4 : t.busy = s.busy) : t.statusWord = s.statusWord := by simp [State.statusWord, h1, h2, h3, h4]

/-! ### Offsets -/

/-- The offsets of rule R23 are those with no register of rule R24. -/
theorem ofIndex_eq_reserved_iff {off : Nat} (h4 : off % 4 = 0) (h : off < 0x80) :
    Reg.ofIndex (off / 4) = .reserved ↔ ReservedOffset off := by
  have key : ∀ q < 32, Reg.ofIndex q = .reserved ↔ ReservedOffset (4 * q) := by
    unfold ReservedOffset; decide
  have := key (off / 4) (by omega)
  rwa [show 4 * (off / 4) = off by omega] at this

/-- Each register stands at its offset (rules R23, R24). -/
@[simp] theorem ofIndex_offset (reg : Reg) : Reg.ofIndex (reg.offset / 4) = reg := by
  rcases reg with _ | _ | _ | _ | _ | _ | _ | _ | _ | _ | _ | i | i | i | _ <;> first | rfl | (fin_cases i <;> rfl)

/-- Each register's offset is one that an aligned 32-bit access may have (rule R22). -/
@[simp] theorem regAccessOk_offset (reg : Reg) : regAccessOk reg.offset 4 = true := by
  rcases reg with _ | _ | _ | _ | _ | _ | _ | _ | _ | _ | _ | i | i | i | _ <;> first | rfl | (fin_cases i <;> rfl)

/-- An access at which a register other than the reserved ones is found stands at that register's offset. -/
theorem offset_of_ofIndex {off width : Nat} {reg : Reg} (hok : regAccessOk off width = true)
    (h : Reg.ofIndex (off / 4) = reg) (hr : reg ≠ .reserved) : width = 4 ∧ off = reg.offset := by
  obtain ⟨⟨hw, h4⟩, hlt⟩ : (width = 4 ∧ off % 4 = 0) ∧ off < 0x80 := by simpa [regAccessOk] using hok
  have key : ∀ q < 32, Reg.ofIndex q ≠ .reserved → 4 * q = (Reg.ofIndex q).offset := by decide
  have := key (off / 4) (by omega) (h ▸ hr)
  exact ⟨hw, by rw [← h]; omega⟩

theorem hostMove_write_reg (reg : Reg) (v : Word) (s : State) :
    hostMove (.regWrite reg.offset 4 v) s = .next (s.writeReg reg v) := by
  rw [hostMove_regWrite_ok (regAccessOk_offset reg), ofIndex_offset]

theorem hostMove_read_reg (reg : Reg) (s : State) :
    hostMove (.regRead reg.offset 4) s = .next { s with readData := some (s.readReg reg) } := by
  rw [hostMove_regRead_ok (regAccessOk_offset reg), ofIndex_offset]

/-- A write of an idle block's configuration register sets it and changes nothing else (rule R24). -/
theorem writeReg_config {s : State} {reg : Reg} (hb : s.busy = false)
    (hr : reg ≠ .cmd ∧ reg ≠ .status ∧ reg ≠ .irqEn) (v : Word) :
    s.writeReg reg v = { s with regs := s.regs.write reg v } := by
  obtain ⟨h1, h2, h3⟩ := hr
  cases reg <;> simp_all [State.writeReg, ConfigRegs.write]

/-- A host write of a register, as a step. -/
theorem step_hostWr {s : State} {reg : Reg} {v : Word} {rest : List Event} (h : s.schedule = hostWr reg v :: rest) :
    step s = .next (({ s with schedule := rest } : State).writeReg reg v) := by
  rw [step_host h, hostMove_write_reg]

/-- A host read of a register, as a step. -/
theorem step_hostRd {s : State} {reg : Reg} {rest : List Event} (h : s.schedule = hostRd reg :: rest) :
    step s = .next { s with schedule := rest, readData := some (s.readReg reg) } := by
  rw [step_host h, hostMove_read_reg]; cases reg <;> rfl

/-! ### Races -/

/-- A host access races exactly when it touches an extent of the pending command's footprint (rule R221). -/
theorem races_iff (s : State) (a width : Nat) :
    s.races a width = true ↔
      ∃ p, s.pending = some p ∧ ∃ j e, j < width ∧ e ∈ p.footprint ∧ e.base ≤ a + j ∧ a + j < e.base + e.len := by
  cases hp : s.pending with
  | none => simp [races_of_idle hp]
  | some p =>
    simp only [State.races, State.inFootprint, hp, List.any_eq_true, List.mem_range, Extent.contains,
      Bool.and_eq_true, decide_eq_true_eq]
    constructor
    · rintro ⟨j, h1, e, h2, h3⟩; exact ⟨p, rfl, j, e, h1, h2, h3⟩
    · rintro ⟨_, h0, j, e, h1, h2, h3⟩; cases h0; exact ⟨j, h1, e, h2, h3⟩

/-! ### A host write of the buffer -/

/-- A host write of the buffer changes its bytes, and on a race the draws and the race mark, only. -/
theorem hostWrite_frame (a width : Nat) (v : Word) (s : State) :
    s.hostWrite a width v =
      { s with
        mem := (s.hostWrite a width v).mem
        race := s.race || s.races a width
        draws := (s.hostWrite a width v).draws } := by
  cases hp : s.pending with
  | none => simp [hostWrite_of_idle hp, races_of_idle hp, hp]
  | some p =>
    cases hr : s.races a width with
    | false => simp [hostWrite_of_clean hr, hp]
    | true =>
      rw [hostWrite_of_race hp hr]
      simp only [hp, scrambleAll_params, scrambleAll_cmd, scrambleAll_done, scrambleAll_wbusy,
        scrambleAll_err, scrambleAll_doneIe, scrambleAll_errInfo, scrambleAll_regs, scrambleAll_pending,
        scrambleAll_resetAsserted, scrambleAll_schedule, scrambleAll_readData, Bool.or_true]

theorem hostWrite_wf {s : State} (h : s.mem.wf) (a width : Nat) (v : Word) : (s.hostWrite a width v).mem.wf := by
  cases hp : s.pending with
  | none => rw [hostWrite_of_idle hp]; exact wf_writeBytes h ..
  | some p =>
    cases hr : s.races a width with
    | false => rw [hostWrite_of_clean hr]; exact wf_writeBytes h ..
    | true => rw [hostWrite_of_race hp hr]; exact wf_scrambleAll (wf_writeBytes h ..) _

theorem hostWrite_inside {s : State} (h : s.mem.inside s.params.memBytes) {a width : Nat}
    (ha : a + width ≤ s.params.memBytes) (v : Word) : (s.hostWrite a width v).mem.inside s.params.memBytes := by
  have hw : (s.mem.writeBytes a (bytesOfWord v width)).inside s.params.memBytes :=
    inside_writeBytes h _ _ (.inr (by simpa using ha))
  cases hp : s.pending with
  | none => rw [hostWrite_of_idle hp]; exact hw
  | some p =>
    cases hr : s.races a width with
    | false => rw [hostWrite_of_clean hr]; exact hw
    | true =>
      rw [hostWrite_of_race hp hr]
      exact inside_scrambleAll (s := { s with mem := s.mem.writeBytes a (bytesOfWord v width) }) hw _

/-! ### Reset -/

/-- Asserting reset leaves nothing of the old state but the parameters, the race mark, the buffer outside the pending
command's write extent and the model's own fields. -/
theorem assertReset_frame (s : State) :
    s.assertReset =
      { State.reset with
        params := s.params
        mem := s.assertReset.mem
        race := s.race
        resetAsserted := true
        schedule := s.schedule
        readData := s.readData
        draws := s.assertReset.draws } := by
  simp [State.assertReset, State.resetRegisters, State.reset]

theorem assertReset_of_idle {s : State} (h : s.pending = none) :
    s.assertReset = { s.resetRegisters with resetAsserted := true } := by
  simp [State.assertReset, h, State.scrambleAll]

/-- A dropped word that decodes to ILLEGAL leaves the buffer (rule R70, log entry 14). -/
theorem assertReset_mem_of_illegal {s : State} {p : Pending} (h : s.pending = some p) (hd : decode p.word = none) :
    s.assertReset.mem = s.mem := by
  simp [State.assertReset, h, Pending.writes, hd, State.scrambleAll, State.resetRegisters]

/-- The release of the reset input, as a step. -/
theorem step_release {s : State} {rest : List Event} (h : s.schedule = .host (.resetLine false) :: rest) :
    step s = .next { s with resetAsserted := false, schedule := rest } := step_host h

theorem assertReset_of_pending {s : State} {p : Pending} (h : s.pending = some p) :
    s.assertReset = { (s.scrambleAll p.writes).resetRegisters with resetAsserted := true } := by
  simp [State.assertReset, h]

end Sys2Proof.Machine
end

