-- ==== Sys2Proof/Laws/PerInstr.lean ====
section
/-! SUPPORT. A statement about each command as syntax, made one constructor at a time: the fields a command is written with
are the fields of its word, and they are legal. -/

namespace Sys2Proof.Laws.Fields

/-- The word of a command has the command's own fields, and they are legal (rules R81, R82, R85). -/
def Statement (i : Instr) : Prop := fieldsOf (encode i) = i.fields ∧ i.wellFormed = true

theorem cscFwd (src dst : SurfNum) (range : Bool) : Statement (.cscFwd src dst range) := by
  unfold Statement; revert src dst range; decide

theorem cscInv (src dst : SurfNum) (range : Bool) : Statement (.cscInv src dst range) := by
  unfold Statement; revert src dst range; decide

theorem pack (pal : SurfNum) : Statement (.pack pal) := by
  unfold Statement; revert pal; decide

theorem unpack : Statement .unpack := by
  unfold Statement; decide

end Sys2Proof.Laws.Fields
end

