-- ==== Sys2Proof/Laws/ReadBack.lean ====
section
/-! SUPPORT. Reading back what a completed command has written, one lemma per kind of written byte: a converted channel, a
palette word's half, a byte of the index section; and the number a written channel's byte holds. -/

namespace Sys2Proof.Machine

theorem completionFrame_complete (r : Result) (s : State) : CompletionFrame s (s.complete r) := by
  constructor <;> rfl

/-! ### Channels -/

theorem sat_mem (v : Int) {lo hi : Int} (h : lo ≤ hi) : lo ≤ sat v lo hi ∧ sat v lo hi ≤ hi := by
  unfold sat; split_ifs <;> omega

/-- An unsigned channel's byte holds the channel's value (rule R9). -/
theorem toNat_ofInt_u8 {v : Int} (h1 : 0 ≤ v) (h2 : v ≤ 255) : ((BitVec.ofInt 8 v).toNat : Int) = v := by
  rw [BitVec.toNat_ofInt]; omega

/-- A signed channel's byte holds the channel's value (rule R63). -/
theorem toInt_ofInt_s8 {v : Int} (h1 : -128 ≤ v) (h2 : v ≤ 127) : (BitVec.ofInt 8 v).toInt = v := by
  rw [BitVec.toInt_ofInt]; simp only [Int.bmod]; omega

/-- Channel `j` of pixel `p` of a converted range. -/
theorem readByte_converted {pixel : Params → Nat → Byte → Byte → Byte → List Byte}
    (hl : ∀ p d x y z, (pixel p d x y z).length = 3) (pr : Params) (m0 m : Memory)
    {sb db draws first n p j : Nat} (hp : first ≤ p) (hp' : p < first + n) (hj : j < 3) :
    (m.writeBytes (db + 3 * first) (cscBytes (pixel pr) m0 (sb + 3 * first) draws n)).readByte (db + 3 * p + j) =
      ((pixel pr (draws + 3 * (p - first)) (m0.readByte (sb + 3 * p)) (m0.readByte (sb + 3 * p + 1))
        (m0.readByte (sb + 3 * p + 2)))[j]?).getD 0 := by
  rw [readByte_writeBytes, if_pos (by omega), show db + 3 * p + j - (db + 3 * first) = 3 * (p - first) + j by omega,
    cscBytes_getElem? (hl pr) _ _ _ (by omega) hj, show sb + 3 * first + 3 * (p - first) = sb + 3 * p by omega]
  have h : j < (pixel pr (draws + 3 * (p - first)) (m0.readByte (sb + 3 * p)) (m0.readByte (sb + 3 * p + 1))
      (m0.readByte (sb + 3 * p + 2))).length := by rw [hl]; exact hj
  rw [List.getElem?_eq_getElem h]; rfl

/-! ### The packed image -/

/-- The low half of a written palette word. -/
theorem readByte_palette_low (m0 m : Memory) (base o : Nat) {k i : Nat} (hi : i < k) :
    (m.writeBytes o (paletteBytes m0 base k)).readByte (o + 2 * i) =
      (rgb565 (m0.readByte (base + 3 * i)) (m0.readByte (base + 3 * i + 1)) (m0.readByte (base + 3 * i + 2))).extractLsb'
        0 8 := by
  rw [readByte_writeBytes, if_pos (by omega), show o + 2 * i - o = 2 * i + 0 by omega]
  unfold paletteBytes
  rw [getElem?_flatMap_range _ (c := 2) (fun _ => rfl) hi (by norm_num)]
  rfl

/-- The high half of a written palette word. -/
theorem readByte_palette_high (m0 m : Memory) (base o : Nat) {k i : Nat} (hi : i < k) :
    (m.writeBytes o (paletteBytes m0 base k)).readByte (o + 2 * i + 1) =
      (rgb565 (m0.readByte (base + 3 * i)) (m0.readByte (base + 3 * i + 1)) (m0.readByte (base + 3 * i + 2))).extractLsb'
        8 8 := by
  rw [readByte_writeBytes, if_pos (by omega), show o + 2 * i + 1 - o = 2 * i + 1 by omega]
  unfold paletteBytes
  rw [getElem?_flatMap_range _ (c := 2) (fun _ => rfl) hi (by norm_num)]
  rfl

/-- Byte `t` of a written index section. -/
theorem readByte_indexSection (m0 m : Memory) (idx w npix o : Nat) {t : Nat} (ht : t < ceilDiv (npix * w) 8) :
    (m.writeBytes o (indexBytes m0 idx w npix)).readByte (o + t) = packedIndexByte m0 idx w npix t := by
  rw [readByte_writeBytes_inside (by simpa using ht)]
  simp [indexBytes]

/-! ### Tags -/

/-- A changed tag changes the operands' tag only. -/
theorem operands_retag (s : State) (j : SurfNum) (x : Tag) : (s.retag j x).operands = s.operands.setTag j x := by
  unfold State.operands State.retag
  cases h : s.pending <;> simp

end Sys2Proof.Machine
end

