-- ==== Sys2Proof/Tests/Slice0.lean ====
section
/-! SUPPORT. The model's own tests: ill-formed fields refused, words written out from 30_encoding.md decoded, vectors of
95_test_vectors.md computed by one function or one step, and for every statement with hypotheses a witness that meets
them. Expected values are the spec's. -/

namespace Sys2Proof.Tests

open Machine

/-! ### Small states -/

/-- Vector PK3's registers: surface 0 a palette of three pixels at 0, surface 1 three pixels at 9, five indices at 0x20, eight
packed bytes at 0x30, the range 1..2. -/
def demoRegs : ConfigRegs where
  width      := 5
  height     := 1
  k          := 3
  rangeFirst := 1
  rangeCount := 2
  idxBase    := 0x20
  outBase    := 0x30
  outSize    := 8
  surfaces   := ⟨⟨0, 3, .color⟩, ⟨9, 3, .color⟩, ⟨0x40, 0, .chroma⟩, ⟨0, 3, .chroma⟩⟩

/-- Bytes listed from an address on. -/
def placed (a : Nat) (vs : List Byte) : Memory := vs.mapIdx fun i v => (a + i, v)

/-- Vector PK3's palette at 0 and indices at 0x20. -/
def demoMem : Memory := placed 0 [0xFF, 0, 0, 0, 0xFF, 0, 0, 0, 0xFF] ++ placed 0x20 [0, 1, 2, 2, 1]

/-- The idle block with those registers and bytes. -/
def demo : State := { State.reset with regs := demoRegs, mem := demoMem }

/-- The idle block with a packed image of vector UP1 in place of the palette and indices. -/
def packedDemo : State := { demo with mem := placed 0x36 [0xA4, 0x01] }

/-- A command started and not yet completed. -/
def started (i : Instr) (s : State) : State := s.startCommand (encode i)

/-- The result of the next step after the word `w` is placed, tested. -/
def runs (s : State) (w : Nat) (f : State → Bool) : Bool :=
  match step (s.withFetchWord 32 w) with
  | .next t => f t
  | .fault _ => false
  | .refused _ => false

/-- Buffer bytes from an address on. -/
def bytesAt (s : State) (a n : Nat) : List Byte := (List.range n).map fun i => s.mem.readByte (a + i)

/-! ### Well-formedness: each check refuses an ill-formed term (vectors E1 to E6) -/

theorem test_rsv_must_be_clear : CmdFields.rsvClear ⟨1, 0, 0, false, 1⟩ = false := by decide

theorem test_op_must_be_defined :
    CmdFields.opDefined ⟨0, 0, 0, false, 0⟩ = false ∧ CmdFields.opDefined ⟨15, 0, 0, false, 0⟩ = false := by decide

theorem test_pack_leaves_d_and_r_clear :
    CmdFields.packUnusedClear ⟨3, 2, 1, false, 0⟩ = false ∧ CmdFields.packUnusedClear ⟨3, 2, 0, true, 0⟩ = false := by
  decide

theorem test_unpack_leaves_s_d_and_r_clear :
    CmdFields.unpackUnusedClear ⟨4, 1, 0, false, 0⟩ = false ∧ CmdFields.unpackUnusedClear ⟨4, 0, 1, false, 0⟩ = false
    ∧ CmdFields.unpackUnusedClear ⟨4, 0, 0, true, 0⟩ = false := by decide

theorem test_legal_fields_are_well_formed :
    CmdFields.wellFormed ⟨1, 2, 3, true, 0⟩ = true ∧ CmdFields.wellFormed ⟨1, 2, 3, true, 1⟩ = false := by decide

/-! ### Decoding: words written out bit by bit from rule R81, and section 2.11's table -/

theorem test_decode_csc_fwd :
    decode 0b00000000000000000000000_1_11_10_0001#32 = some (.cscFwd 2 3 true)
    ∧ decode 0b00000000000000000000000_0_01_00_0001#32 = some (.cscFwd 0 1 false) := by decide

theorem test_decode_csc_inv :
    decode 0b00000000000000000000000_1_00_00_0010#32 = some (.cscInv 0 0 true)
    ∧ decode 0b00000000000000000000000_0_01_01_0010#32 = some (.cscInv 1 1 false) := by decide

theorem test_decode_pack :
    decode 0b00000000000000000000000_0_00_11_0011#32 = some (.pack 3)
    ∧ decode 0b00000000000000000000000_0_01_11_0011#32 = none := by decide

theorem test_decode_unpack :
    decode 0b00000000000000000000000_0_00_00_0100#32 = some .unpack
    ∧ decode 0b00000000000000000000000_1_00_00_0100#32 = none := by decide

theorem test_decode_table_words :
    decodeTableWord 32 0x1 = some (.cscFwd 0 0 false) ∧ decodeTableWord 32 0x2 = some (.cscInv 0 0 false)
    ∧ decodeTableWord 32 0x3 = some (.pack 0) ∧ decodeTableWord 32 0x4 = some .unpack
    ∧ decodeTableWord 32 0x5 = none := by decide

/-! ### Arithmetic and formats, on the spec's vectors -/

/-- Vectors F3, F6, F10 and F13. -/
theorem test_fwd_vectors :
    fwd .away 255 0 0 = ⟨54, -29, 127⟩ ∧ fwd .away 255 255 0 = ⟨237, -128, 12⟩
    ∧ fwd .away 100 150 200 = ⟨143, 31, -27⟩ ∧ fwd .away 10 20 30 = ⟨19, 6, -5⟩ := by decide

/-- Vectors T1, T4, T6 and T8. -/
theorem test_tie_vectors :
    fwd .away 0 0 1 = ⟨0, 1, 0⟩ ∧ fwd .even 0 0 1 = ⟨0, 0, 0⟩ ∧ fwd .away 0 0 5 = ⟨0, 3, 0⟩
    ∧ fwd .even 0 0 5 = ⟨0, 2, 0⟩ ∧ fwd .away 0 41 44 = ⟨33, 6, -21⟩ ∧ fwd .even 0 41 44 = ⟨32, 6, -21⟩
    ∧ fwd .even 0 0 255 = ⟨18, 127, -12⟩ := by decide

/-- Vectors I3, I4, I5, I9 and I14. -/
theorem test_inv_vectors :
    inv 255 127 127 = ⟨255, 171, 255⟩ ∧ inv 0 (-128) (-128) = ⟨0, 83, 0⟩ ∧ inv 0 127 127 = ⟨199, 0, 235⟩
    ∧ inv 56 127 9 = ⟨70, 28, 255⟩ ∧ inv 200 10 (-20) = ⟨168, 207, 218⟩ := by decide

/-- Vectors C3, C5, C6 and C8. -/
theorem test_rgb565_vectors :
    rgb565 0 0 0xFF = 0xF800 ∧ rgb565 0xFF 0 0 = 0x001F ∧ rgb565 7 3 7 = 0 ∧ rgb565 0x12 0x34 0x56 = 0x51A2 := by
  decide

/-- Section 2.6's packed sizes. -/
theorem test_packed_sizes :
    packedSize 32 12800 = 8064 ∧ packedSize 1 12800 = 2 ∧ packedSize 2 9 = 6 ∧ packedSize 5 6 = 13
    ∧ packedSize 2 0 = 4 ∧ packedSize 256 4 = 516 ∧ packedSize 129 3 = 261 := by decide

/-! ### One step of each command -/

/-- Vectors F3, F4 and F5, whole surface from surface 0 into surface 1. -/
theorem test_csc_fwd_step :
    runs demo 0x41 (fun t => bytesAt t 9 9 == [0x12, 0x7F, 0xF4, 0xB6, 0x9E, 0x8C, 0x36, 0xE3, 0x7F]
      && (t.regs.surf 1).tag == .chroma && (t.regs.surf 0).tag == .color && t.statusWord == 0x02) = true := by decide

/-- Vectors I7 and I8, in place on the range 1..2 of surface 0. -/
theorem test_csc_inv_range_step :
    runs { demo with mem := placed 0 [1, 2, 3, 0x36, 0xE3, 0x7F, 0x12, 0x7F, 0xF4] } 0x102
      (fun t => bytesAt t 0 9 == [1, 2, 3, 0, 0, 0xFD, 0xFD, 0, 0] && (t.regs.surf 0).tag == .color) = true := by decide

/-- Vector E8: a range that ends past the surface. -/
theorem test_csc_range_past_the_end :
    runs { demo with regs := { demoRegs with rangeFirst := 2 } } 0x141
      (fun t => t.statusWord == 0x12 && t.mem == demoMem) = true := by decide

/-- Vector PK3. -/
theorem test_pack_step :
    runs demo 0x03 (fun t => bytesAt t 0x30 8 == [0x1F, 0x00, 0xE0, 0x07, 0x00, 0xF8, 0xA4, 0x01]
      && t.statusWord == 0x02) = true := by decide

/-- As vector E21: the least pixel whose index is not below K is pixel 2. -/
theorem test_pack_bad_index :
    runs { demo with mem := placed 0x20 [0, 2, 3, 255, 0] } 0x03
      (fun t => t.statusWord == 0x32 && t.errInfo == 2) = true := by decide

/-- Vector UP1. -/
theorem test_unpack_step :
    runs packedDemo 0x04 (fun t => bytesAt t 0x20 5 == [0, 1, 2, 2, 1] && t.statusWord == 0x02) = true := by decide

/-- Vector UP4. -/
theorem test_unpack_bad_index :
    runs { demo with regs := { demoRegs with width := 4, outSize := 7 }, mem := [(0x36, 0x34)] } 0x04
      (fun t => t.statusWord == 0x32 && t.errInfo == 2) = true := by decide

/-- Vector E3 and rule R25: an illegal word completes with ILLEGAL_COMMAND, and CMD keeps it. -/
theorem test_illegal_word_step :
    runs demo 0x201 (fun t => t.statusWord == 0x52 && t.cmd == 0x201 && t.mem == demoMem) = true := by decide

/-! ### Registers and the buffer as the host sees them (section 2.12) -/

/-- Vectors G2, G3 and G4. -/
theorem test_register_vectors :
    State.reset.writeReg .status 0xFFFFFFFF = State.reset
    ∧ (State.reset.writeReg .k 0xFFFFFFFF).readReg .k = 0x1FF
    ∧ (State.reset.writeReg (.surfTag 0) 0xFFFFFFFF).readReg (.surfTag 0) = 1 := by decide

/-- Vectors G6 and G7: writes dropped while BUSY. -/
theorem test_dropped_writes :
    (started (.cscFwd 0 1 false) demo).writeReg .k 7 = { started (.cscFwd 0 1 false) demo with wbusy := true }
    ∧ ((started (.cscFwd 0 1 false) demo).writeReg .cmd 0x42).cmd = 0x41 := by decide

/-- Rule R61: the least significant byte at the lower address, at any alignment. -/
theorem test_host_write_little_endian :
    bytesAt (State.reset.hostWrite 5 4 0x44332211) 5 4 = [0x11, 0x22, 0x33, 0x44] := by decide

/-! ### Witnesses: for every statement with hypotheses, values that meet them together -/

/-- The demo with CSC_FWD from surface 0 into surface 1 pending and one host move to come. -/
def busyDemo (op : HostOp) : State := { started (.cscFwd 0 1 false) demo with schedule := [.host op] }

/-- The idle demo with one host move to come. -/
def idleDemo (op : HostOp) : State := { demo with schedule := [.host op] }

/-- The idle demo with a CMD write to come and the engine's move behind it. -/
def toRun (w : Word) : State := { demo with schedule := [hostWr .cmd w, .engine] }

/-- The demo with its indices changed to vector E21's. -/
def badIndexDemo : State := { demo with mem := placed 0x20 [0, 2, 3, 255, 0] }

/-- The packed demo with its first index decoding to 3. -/
def badStreamDemo : State := { demo with mem := placed 0x36 [0xA7, 0x01] }

theorem witness_DecodeInvertsEncode : decode 0x1E1#32 = some (.cscFwd 2 3 true) ∧ decode 0x4#32 = some .unpack := by decide

/-- One word for each clause: RSV's ends, the two CSC commands and PACK at the ends of S, D and R, the illegal forms of PACK
and UNPACK, UNPACK, and the ends of the reserved opcodes; and a pending illegal word. -/
theorem witness_DecodeFollowsTheFieldTable :
    0x201 / 512 ≠ 0 ∧ 0xFFFFFFFF / 512 ≠ 0
    ∧ (0x1F1 / 512 = 0 ∧ 0x1F1 % 16 = 1 ∧ (3 : SurfNum).val = 0x1F1 / 16 % 4 ∧ (3 : SurfNum).val = 0x1F1 / 64 % 4)
    ∧ (0x002 / 512 = 0 ∧ 0x002 % 16 = 2 ∧ (0 : SurfNum).val = 0x002 / 16 % 4 ∧ (0 : SurfNum).val = 0x002 / 64 % 4)
    ∧ (0x033 / 512 = 0 ∧ 0x033 % 16 = 3 ∧ 0x033 / 64 % 4 = 0 ∧ 0x033 / 256 % 2 = 0
        ∧ (3 : SurfNum).val = 0x033 / 16 % 4)
    ∧ (0x063 % 16 = 3 ∧ 0x063 / 64 % 4 ≠ 0) ∧ (0x123 % 16 = 3 ∧ 0x123 / 256 % 2 ≠ 0)
    ∧ (0x004 / 512 = 0 ∧ 0x004 % 16 = 4 ∧ 0x004 / 16 % 4 = 0 ∧ 0x004 / 64 % 4 = 0 ∧ 0x004 / 256 % 2 = 0)
    ∧ (0x014 % 16 = 4 ∧ 0x014 / 16 % 4 ≠ 0) ∧ 0x100 % 16 = 0 ∧ 5 ≤ 0x005 % 16 ∧ 5 ≤ 0x00F % 16
    ∧ (decode 0x5 = none ∧ (toRun 0x5).busy = false ∧ (toRun 0x5).resetAsserted = false
        ∧ (toRun 0x5).schedule = hostWr .cmd 0x5 :: .engine :: []) := by
  refine ⟨by decide, by decide, by decide, by decide, by decide, by decide, by decide, by decide, by decide, by decide,
    by decide, by decide, by decide, rfl, rfl, rfl⟩

theorem witness_IllegalWordsCompleteWithIllegalCommand :
    (demo.startCommand 0xFFFFFFFF).pending = some ⟨0xFFFFFFFF, demoRegs⟩
    ∧ (demo.startCommand 0xFFFFFFFF).resetAsserted = false ∧ (demo.startCommand 0xFFFFFFFF).EngineNext
    ∧ IllegalWord 0xFFFFFFFF ∧ IllegalWord 0x104 ∧ ¬ IllegalWord 0x33 := by
  refine ⟨rfl, rfl, .inl rfl, ?_, ?_, ?_⟩ <;> unfold IllegalWord <;> decide

/-- An exact .5 of either sign. -/
theorem witness_RoundNearestIsNearest :
    2 * (10000 * roundNearest .even 5000 10000 - 5000).natAbs = 10000
    ∧ 2 * (10000 * roundNearest .even (-15000) 10000 - -15000).natAbs = 10000 := by decide

/-- The two saturating inputs and the ends of the range. -/
theorem witness_ForwardNarrowingSaturatesTwoInputs :
    (0 : Int) ≤ 0 ∧ (0 : Int) ≤ 255 ∧ (255 : Int) ≤ 255 ∧ roundNearest .even (numCb 0 0 255) 10000 = 128
    ∧ roundNearest .away (numCr 255 0 0) 10000 = 128 ∧ roundNearest .away (numCb 0 0 254) 10000 = 127 := by decide

/-- The round trips of vectors RT1 and RT4 at the ends of the range. -/
theorem witness_RoundTripWithinTwoPerChannel :
    (0 : Int) ≤ 255 ∧ (255 : Int) ≤ 255 ∧ (0 : Int) ≤ 0 ∧ fwd .away 255 0 0 = ⟨54, -29, 127⟩
    ∧ inv 54 (-29) 127 = ⟨253, 0, 0⟩ := by decide

theorem witness_SaturatedTruncationIsSaturatedFloor : Int.tdiv (-1) 10000 ≠ (-1) / 10000 := by decide

/-- A reference at the top and one at the bottom of a channel's range, with the two values each admits. -/
theorem witness_TolerantChannelsAreAnyValueWithinOne :
    (0 : Int) ≤ 255 ∧ (255 : Int) ≤ 255 ∧ ChannelAdmits .tolerant 0 255 255 254 ∧ ChannelAdmits .tolerant 0 255 255 255
    ∧ ChannelAdmits .tolerant (-128) 127 (-128) (-127) ∧ ChannelAdmits .tolerant (-128) 127 (-128) (-128) := by
  unfold ChannelAdmits; decide

/-- The whole surface out of place and in place, and a range that ends where both surfaces end. -/
theorem witness_CscFwdConvertsItsRange :
    CscWellFormed 0 1 false demo.operands demo.params.memBytes ∧ CscWellFormed 0 0 false demo.operands demo.params.memBytes
    ∧ CscWellFormed 0 1 true demo.operands demo.params.memBytes := by
  refine ⟨?_, ?_, ?_⟩ <;> unfold CscWellFormed CscInBounds InBounds Overlap <;> decide

/-- The same for CSC_INV, with an empty surface among them. -/
theorem witness_CscInvConvertsItsRange :
    CscWellFormed 1 1 false demo.operands demo.params.memBytes ∧ CscWellFormed 1 0 true demo.operands demo.params.memBytes
    ∧ CscWellFormed 2 2 false demo.operands demo.params.memBytes := by
  refine ⟨?_, ?_, ?_⟩ <;> unfold CscWellFormed CscInBounds InBounds Overlap <;> decide

/-- Two orders of the three pixels. -/
theorem witness_ConversionOrderDoesNotMatter :
    CscWellFormed 0 1 false demo.operands demo.params.memBytes
    ∧ cscCount 0 false demo.operands = 3 ∧ [0, 1, 2].Perm (List.range 3) ∧ [2, 0, 1].Perm (List.range 3) := by
  unfold CscWellFormed CscInBounds InBounds Overlap; decide

/-- Each argument check alone, and the bounds check alone (vectors E7 to E10), at its boundary. -/
theorem witness_CscReportsTheFirstFailedCheck :
    CscBadArgument 0 2 false demoRegs
    ∧ CscBadArgument 0 1 true { demoRegs with rangeFirst := 2 }
    ∧ CscBadArgument 1 2 true { demoRegs with rangeCount := 0 }
    ∧ CscBadArgument 0 1 false (demoRegs.setSurf 1 ⟨8, 3, .color⟩)
    ∧ ¬ CscBadArgument 0 1 false (demoRegs.setSurf 1 ⟨0xFFF8, 3, .color⟩)
    ∧ ¬ CscInBounds 0 1 (demoRegs.setSurf 1 ⟨0xFFF8, 3, .color⟩) 65536
    ∧ CscWellFormed 0 1 false (demoRegs.setSurf 1 ⟨0xFFF7, 3, .color⟩) 65536 := by
  refine ⟨?_, ?_, ?_, ?_, ?_, ?_, ?_⟩
  iterate 5 (unfold CscBadArgument Overlap; decide)
  · unfold CscInBounds InBounds; decide
  · unfold CscWellFormed CscInBounds InBounds Overlap; decide

theorem witness_ConvertersReadNoTag :
    (Instr.cscFwd 0 1 false = .cscFwd 0 1 false ∨ Instr.cscFwd 0 1 false = .cscInv 0 1 false)
    ∧ (cscResult fwdPixel .chroma 0 1 false demo).err = .ok
    ∧ (demo.retag 0 .chroma).operands ≠ demo.operands := by decide

/-- Both ends of every row of rule R140's table. -/
theorem witness_BitsPerPixelIsTheLeastExponent :
    1 ≤ 1 ∧ (3 ≤ 3 ∧ 3 ≤ 4) ∧ (3 ≤ 4 ∧ 4 ≤ 4) ∧ (129 ≤ 129 ∧ 129 ≤ 256) ∧ (129 ≤ 256 ∧ 256 ≤ 256) ∧ 5 ≤ 2 ^ 3
    ∧ bpp 4 = 2 ∧ bpp 5 = 3 ∧ bpp 8 = 3 ∧ bpp 9 = 4 ∧ bpp 128 = 7 ∧ bpp 129 = 8 ∧ bpp 256 = 8 := by decide

theorem witness_PackedSizeAndTheEmptyIndexSection : (1 ≤ 1 ∧ bpp 1 = 0) ∧ (1 ≤ 256 ∧ bpp 256 ≠ 0) := by decide

theorem witness_PackWritesThePackedImage :
    PackWellFormed 0 demo.operands demo.params.memBytes
    ∧ ∀ p, p < demo.operands.npix → storedIndex demo.operands demo.mem p < demo.operands.kNat := by
  unfold PackWellFormed InBounds Overlap storedIndex; decide

theorem witness_UnpackWritesTheDecodedIndices :
    UnpackWellFormed packedDemo.operands packedDemo.params.memBytes
    ∧ ∀ p, p < packedDemo.operands.npix → streamIndex packedDemo.operands packedDemo.mem p < packedDemo.operands.kNat := by
  unfold UnpackWellFormed InBounds Overlap streamIndex streamBit; decide

/-- A register file for each outcome of PACK's checks: K = 0 and K = 257, a wrong count, OUT over IDX, OUT past the end, a
CHROMA palette, a wrong size, and none. -/
theorem witness_PackerReportsTheFirstFailedCheck_pack :
    PackCheck 0 { demoRegs with k := 0 } 65536 (some .invalidArgument)
    ∧ PackCheck 0 { demoRegs with k := 257 } 65536 (some .invalidArgument)
    ∧ PackCheck 2 demoRegs 65536 (some .invalidArgument)
    ∧ PackCheck 0 { demoRegs with outBase := 0x24 } 65536 (some .invalidArgument)
    ∧ PackCheck 0 { demoRegs with outBase := 0xFFF9 } 65536 (some .outOfBounds)
    ∧ PackCheck 3 demoRegs 65536 (some .wrongDomain)
    ∧ PackCheck 0 { demoRegs with outSize := 7 } 65536 (some .sizeMismatch)
    ∧ PackCheck 0 { demoRegs with outBase := 0xFFF8 } 65536 none := by
  have of : ∀ (pal : SurfNum) (c : ConfigRegs) (e : Option ErrCode), packError pal c 65536 = e → PackCheck pal c 65536 e :=
    fun pal c e h => h ▸ packCheck_packError pal c 65536
  refine ⟨?_, ?_, ?_, ?_, ?_, ?_, ?_, ?_⟩ <;> refine of _ _ _ ?_ <;> decide

/-- The same for UNPACK. -/
theorem witness_PackerReportsTheFirstFailedCheck_unpack :
    UnpackCheck { demoRegs with k := 0 } 65536 (some .invalidArgument)
    ∧ UnpackCheck { demoRegs with k := 257 } 65536 (some .invalidArgument)
    ∧ UnpackCheck { demoRegs with outBase := 0x19 } 65536 (some .invalidArgument)
    ∧ UnpackCheck { demoRegs with idxBase := 0xFFFC } 65536 (some .outOfBounds)
    ∧ UnpackCheck { demoRegs with outSize := 9 } 65536 (some .sizeMismatch)
    ∧ UnpackCheck { demoRegs with idxBase := 0xFFFB } 65536 none := by
  have of : ∀ (c : ConfigRegs) (e : Option ErrCode), unpackError c 65536 = e → UnpackCheck c 65536 e :=
    fun c e h => h ▸ unpackCheck_unpackError c 65536
  refine ⟨?_, ?_, ?_, ?_, ?_, ?_⟩ <;> refine of _ _ ?_ <;> decide

theorem witness_ErrInfoIsTheLeastBadPixel :
    ({ demo with schedule := [hostWr .cmd 3] } : State).busy = false
    ∧ exec (.pack 0) badIndexDemo = .next (badIndexDemo.complete (packResult 0 badIndexDemo))
    ∧ (badIndexDemo.complete (packResult 0 badIndexDemo)).err = .indexOutOfRange
    ∧ exec .unpack badStreamDemo = .next (badStreamDemo.complete (unpackResult badStreamDemo))
    ∧ (badStreamDemo.complete (unpackResult badStreamDemo)).err = .indexOutOfRange
    ∧ (demo.complete (packResult 0 demo)).err ≠ .indexOutOfRange :=
  ⟨rfl, rfl, by decide, rfl, by decide, by decide⟩

/-- K = 4, and K = 1 with an empty index section. -/
theorem witness_UnpackNeverReportsAnIndexOnPowersOfTwo :
    ({ demoRegs with k := 4, outSize := 10 } : ConfigRegs).kNat = 2 ^ 2
    ∧ UnpackWellFormed { demoRegs with k := 4, outSize := 10 } 65536
    ∧ ({ demoRegs with k := 1, outSize := 2 } : ConfigRegs).kNat = 2 ^ 0
    ∧ UnpackWellFormed { demoRegs with k := 1, outSize := 2 } 65536 := by
  unfold UnpackWellFormed InBounds Overlap; decide

/-- The PACK of vector PK3, then the UNPACK into a fresh array right behind the packed buffer. -/
theorem witness_PackThenUnpackRestoresTheIndices :
    let t := demo.complete (packResult 0 demo)
    let u : State := { t with regs := { t.regs with idxBase := 0x38 } }
    exec (.pack 0) demo = .next t ∧ t.err = .ok ∧ u.mem = t.mem ∧ u.params = demo.params
    ∧ u.operands.k = demo.operands.k ∧ u.operands.width = demo.operands.width
    ∧ u.operands.height = demo.operands.height ∧ u.operands.outBase = demo.operands.outBase
    ∧ u.operands.outSize = demo.operands.outSize
    ∧ ¬ Overlap u.operands.outBase.toNat u.operands.outSize.toNat u.operands.idxBase.toNat u.operands.npix
    ∧ InBounds u.operands.idxBase.toNat u.operands.npix u.params.memBytes := by
  refine ⟨rfl, by decide, rfl, rfl, rfl, rfl, rfl, rfl, rfl, ?_, ?_⟩
  · unfold Overlap; decide
  · unfold InBounds; decide

/-- Two packed buffers that differ in a palette byte and in the padding bits only. -/
theorem witness_UnpackReadsOnlyTheIndexBits :
    let s' : State := { packedDemo with mem := placed 0x30 [7] ++ placed 0x36 [0xA4, 0xFD] }
    s'.operands = packedDemo.operands ∧ s'.params = packedDemo.params ∧ s'.errInfo = packedDemo.errInfo
    ∧ s'.mem ≠ packedDemo.mem
    ∧ ∀ q, q < packedDemo.operands.npix * bpp packedDemo.operands.kNat →
        streamBit packedDemo.operands s'.mem q = streamBit packedDemo.operands packedDemo.mem q := by
  refine ⟨rfl, rfl, rfl, by decide, ?_⟩
  unfold streamBit; decide

theorem witness_StepRunsTheDecodedCommand :
    (started .unpack demo).pending = some ⟨4, demoRegs⟩ ∧ (started .unpack demo).resetAsserted = false
    ∧ (started .unpack demo).EngineNext ∧ decode 4 = some .unpack ∧ decodeTableWord 32 0x33 = some (.pack 3) :=
  ⟨by decide, rfl, .inl rfl, by decide, by decide⟩

/-- Enabled, idle, and held by the reset input. -/
theorem witness_CompletionFiresExactlyWhenEnabled :
    ((started .unpack demo).EngineNext ∧ (started .unpack demo).busy = true ∧ (started .unpack demo).resetAsserted = false)
    ∧ (demo.EngineNext ∧ demo.busy = false)
    ∧ (({ started .unpack demo with resetAsserted := true, schedule := [.engine] } : State).EngineNext
        ∧ ({ started .unpack demo with resetAsserted := true, schedule := [.engine] } : State).resetAsserted = true) :=
  ⟨⟨.inl rfl, rfl, rfl⟩, ⟨.inl rfl, rfl⟩, ⟨.inr ⟨[], rfl⟩, rfl⟩⟩

/-- A code that the command and the tag each follow: OK on a conversion, not OK on another. -/
theorem witness_CommandsWriteOnlyTheirWriteExtent :
    (cscResult fwdPixel .chroma 0 1 false demo).err = .ok ∧ (cscResult invPixel .color 0 2 false demo).err ≠ .ok
    ∧ (cscResult invPixel .color 0 2 false demo).err ≠ .indexOutOfRange := by decide

theorem witness_FailedCommandsChangeOnlyTheirWriteExtent :
    (exec (.pack 0) badIndexDemo = .next (badIndexDemo.complete (packResult 0 badIndexDemo))
      ∧ (badIndexDemo.complete (packResult 0 badIndexDemo)).err = .indexOutOfRange
      ∧ 7 < (writeExtent (.pack 0) badIndexDemo.operands).len)
    ∧ (exec (.pack 3) demo = .next (demo.complete (packResult 3 demo))
      ∧ (demo.complete (packResult 3 demo)).err = .wrongDomain) :=
  ⟨⟨rfl, by decide, by decide⟩, rfl, by decide⟩

theorem witness_OnlyCompletionOrResetEndsACommand :
    (started .unpack demo).pending = some ⟨4, demoRegs⟩ ∧ (started .unpack demo).resetAsserted = false
    ∧ (started .unpack demo).EngineNext
    ∧ step (busyDemo (.regRead 0 4)) = .next { started (.cscFwd 0 1 false) demo with readData := some 0x41 } :=
  ⟨by decide, rfl, .inl rfl, rfl⟩

theorem witness_RunningACommandDoesNotDependOnItsLatency :
    let s : State := { demo with schedule := hostRun .unpack 2 }
    s.busy = false ∧ s.resetAsserted = false ∧ s.schedule = hostRun .unpack 2 := ⟨rfl, rfl, rfl⟩

theorem witness_CmdWriteStartsACommand :
    ({ demo with schedule := [hostWr .cmd 0xFFFFFFFF] } : State).busy = false
    ∧ ({ demo with schedule := [hostWr .cmd 0xFFFFFFFF] } : State).schedule = hostWr .cmd 0xFFFFFFFF :: [] := ⟨rfl, rfl⟩

/-- CMD, ERR_INFO and the last register are dropped; STATUS and IRQ_EN are not. -/
theorem witness_WritesWhileBusyAreDropped :
    (busyDemo (.regWrite 0x078 4 1)).busy = true ∧ (busyDemo (.regWrite 0x078 4 1)).schedule = [.host (.regWrite 0x078 4 1)]
    ∧ ∀ off ∈ [0x000, 0x004, 0x008, 0x00C, 0x078], off % 4 = 0 ∧ off < 0x80 ∧ ¬ ReservedOffset off := by
  refine ⟨rfl, rfl, ?_⟩; unfold ReservedOffset; decide

theorem witness_StatusWriteClearsDoneAndWbusy :
    (idleDemo (.regWrite Reg.status.offset 4 0x2)).schedule = hostWr .status 0x2 :: []
    ∧ (0x2#32).getLsbD 1 = true ∧ (0x2#32).getLsbD 2 = false ∧ (0x4#32).getLsbD 1 = false
    ∧ (0x4#32).getLsbD 2 = true := ⟨rfl, by decide⟩

theorem witness_ConfigurationRegistersReadBack :
    demo.busy = false ∧ Reg.surfTag 3 ≠ .cmd ∧ Reg.surfTag 3 ≠ .status ∧ Reg.surfBase 3 ≠ Reg.surfTag 3 := by decide

/-- RANGE_FIRST stands at 0x018 and RANGE_COUNT at 0x01C, and SURF3_COUNT at 0x074 (rule R24). -/
theorem test_register_offsets :
    hostMove (.regWrite 0x018 4 7) demo = .next { demo with regs := { demoRegs with rangeFirst := 7 } }
    ∧ hostMove (.regRead 0x01C 4) demo = .next { demo with readData := some 2 }
    ∧ hostMove (.regRead 0x074 4) demo = .next { demo with readData := some 3 } := ⟨rfl, rfl, rfl⟩

/-- The ends of each reserved range. -/
theorem witness_ReservedOffsetsAndFieldsReadZero :
    ∀ off ∈ [0x02C, 0x03C, 0x04C, 0x05C, 0x06C, 0x07C], ReservedOffset off ∧ off % 4 = 0 := by
  unfold ReservedOffset; decide

/-- Refused for the width, for the alignment and for the offset; and the last register, which is not. -/
theorem witness_RegisterAccessesAreAlignedWords :
    (∀ a ∈ [(0x000, 2), (0x002, 4), (0x080, 4)], ¬ (a.2 = 4 ∧ a.1 % 4 = 0 ∧ a.1 < 0x80))
    ∧ ((4 : Nat) = 4 ∧ 0x07C % 4 = 0 ∧ 0x07C < 0x80) := by decide

/-- A width that is refused, the first access past the end and the last one inside; and while a command is pending, bytes
outside its footprint. -/
theorem witness_BufferAccessesAreLittleEndian :
    (¬ ((3 : Nat) = 1 ∨ (3 : Nat) = 2 ∨ (3 : Nat) = 4))
    ∧ (((4 : Nat) = 1 ∨ (4 : Nat) = 2 ∨ (4 : Nat) = 4) ∧ demo.params.memBytes < 65533 + 4)
    ∧ (65532 + 4 ≤ demo.params.memBytes ∧ demo.races 65532 4 = false)
    ∧ (started (.cscFwd 0 1 false) demo).races 18 4 = false := by decide

theorem witness_WideWritesAreByteWrites :
    demo.races 5 4 = false ∧ (started (.cscFwd 0 1 false) demo).races 18 2 = false := by decide

/-- A register read, and reads of the buffer inside and outside a pending command's footprint. -/
theorem witness_ReadsHaveNoSideEffects :
    step (busyDemo (.regRead 0 4)) = .next { started (.cscFwd 0 1 false) demo with readData := some 0x41 }
    ∧ step (busyDemo (.memRead 0x20 1)) = .next { started (.cscFwd 0 1 false) demo with readData := some 0 }
    ∧ (busyDemo (.memRead 0x20 1)).races 0x20 1 = false
    ∧ ∃ t, step (busyDemo (.memRead 17 1)) = .next t :=
  ⟨rfl, rfl, by decide, _, rfl⟩

/-- Writes inside a pending command's footprint and while idle, and a CMD write. -/
theorem witness_BufferWritesNeverChangeACommand :
    (∃ t, hostMove (.memWrite 17 4 0xFF) (started (.cscFwd 0 1 false) demo) = .next t)
    ∧ hostMove (.memWrite 0x60 1 0xFF) demo = .next { demo with mem := demoMem ++ [(0x60, 0xFF)] }
    ∧ ∃ t, step (idleDemo (.regWrite Reg.cmd.offset 4 0x33)) = .next t
        ∧ (idleDemo (.regWrite Reg.cmd.offset 4 0x33)).pending = none ∧ t.pending = some ⟨0x33, demoRegs⟩ :=
  ⟨⟨_, rfl⟩, rfl, _, rfl, rfl, rfl⟩

/-- The last byte of the footprint, and the first behind it. -/
theorem witness_RaceMarkRecordsFootprintAccesses :
    (started (.cscFwd 0 1 false) demo).inFootprint (17 + 0) = true
    ∧ (started (.cscFwd 0 1 false) demo).inFootprint 18 = false
    ∧ ∃ t, step (busyDemo (.memRead 17 1)) = .next t ∧ t.race = true := ⟨by decide, by decide, _, rfl, by decide⟩

/-- An access half inside and half outside the footprint. -/
theorem witness_RacingAccessesDisturbOnlyTheFootprint :
    (started (.cscFwd 0 1 false) demo).pending = some ⟨0x41, demoRegs⟩
    ∧ (started (.cscFwd 0 1 false) demo).races 17 2 = true ∧ 17 + 2 ≤ demo.params.memBytes
    ∧ (started (.cscFwd 0 1 false) demo).inFootprint (17 + 1) = false
    ∧ (started (.cscFwd 0 1 false) demo).inFootprint 0x20 = false := by decide

/-- A write of the bytes right behind the footprint, and a read of bytes outside it. -/
theorem witness_SafeHostStepsSeeNoPartialResult :
    (busyDemo (.memWrite 18 4 0xFF)).pending = some ⟨0x41, demoRegs⟩ ∧ HostOp.memWrite 18 4 0xFF ≠ .resetLine true
    ∧ (busyDemo (.memWrite 18 4 0xFF)).inFootprint 17 = true
    ∧ (∃ t, step (busyDemo (.memWrite 18 4 0xFF)) = .next t ∧ t.Safe)
    ∧ ∃ t, step (busyDemo (.memRead 0x20 1)) = .next t ∧ t.Safe := by
  refine ⟨by decide, by decide, by decide, ⟨_, rfl, ?_⟩, _, rfl, ?_⟩ <;> unfold State.Safe <;> decide

theorem witness_IrqIsDoneAndEnabled : (0x6#32).getLsbD 1 = true ∧ demo.busy = false := by decide

theorem witness_ResetPutsEveryRegisterAtZero :
    (busyDemo (.resetLine true)).schedule = .host (.resetLine true) :: []
    ∧ ({ started .unpack demo with resetAsserted := true } : State).resetAsserted = true
    ∧ ({ started .unpack demo with resetAsserted := true } : State).EngineNext := ⟨rfl, rfl, .inl rfl⟩

/-- Idle, with an illegal word pending, and with a command pending whose write extent lies in the buffer. -/
theorem witness_ResetKeepsTheBufferButTheWriteExtent :
    ((idleDemo (.resetLine true)).schedule = .host (.resetLine true) :: [] ∧ (idleDemo (.resetLine true)).pending = none)
    ∧ (({ demo.startCommand 0x5 with schedule := [.host (.resetLine true)] } : State).schedule
          = .host (.resetLine true) :: []
        ∧ ({ demo.startCommand 0x5 with schedule := [.host (.resetLine true)] } : State).pending = some ⟨0x5, demoRegs⟩
        ∧ decode 0x5 = none)
    ∧ ((busyDemo (.resetLine true)).schedule = .host (.resetLine true) :: []
        ∧ (busyDemo (.resetLine true)).pending = some ⟨0x41, demoRegs⟩ ∧ decode 0x41 = some (.cscFwd 0 1 false)
        ∧ 8 < (writeExtent (.cscFwd 0 1 false) demoRegs).len
        ∧ (writeExtent (.cscFwd 0 1 false) demoRegs).base + 8 < demo.params.memBytes) :=
  ⟨⟨rfl, rfl⟩, ⟨rfl, rfl, by decide⟩, rfl, by decide, by decide, by decide, by decide⟩

/-- The release with a command pending and the engine's move behind it. -/
theorem witness_ReleasingResetEnablesTheCompletion :
    let s : State := { started .unpack demo with
      resetAsserted := true, schedule := [.host (.resetLine false), .engine] }
    s.schedule = .host (.resetLine false) :: [.engine] ∧ s.pending = some ⟨4, demoRegs⟩ ∧ decode 4 = some .unpack :=
  ⟨rfl, by decide, by decide⟩

/-- The demo meets the invariant, idle and with a command pending, and a step from it goes on. -/
theorem witness_EveryStepKeepsTheInvariant :
    demo.Inv ∧ (started (.cscFwd 0 1 false) demo).Inv ∧ ∃ t, step (started (.cscFwd 0 1 false) demo) = .next t := by
  refine ⟨⟨by decide, by decide, by decide, by simp [demo, State.reset], by decide, by decide⟩,
    ⟨by decide, by decide, by decide, ?_, by decide, by decide⟩, _, rfl⟩
  intro p hp; cases hp; exact ⟨rfl, rfl⟩

theorem witness_NoStepChangesTheParameters : step demo = .next demo := rfl

/-- Each refusal. -/
theorem witness_OnlyHostAccessesAreRefused :
    step (idleDemo (.regRead 0x080 4)) = .refused .registerAccess
    ∧ step (idleDemo (.memWrite 0 3 0)) = .refused .bufferWidth
    ∧ step (idleDemo (.memRead 65536 1)) = .refused .bufferAddress := ⟨rfl, rfl, rfl⟩

/-- A tag changed by the host, by reset and by each converter's completion. -/
theorem witness_OnlyConvertersTheHostAndResetWriteTags :
    (∃ t, step (idleDemo (.regWrite (Reg.surfTag 0).offset 4 1)) = .next t
        ∧ (t.regs.surf 0).tag ≠ (demo.regs.surf 0).tag)
    ∧ (∃ t, step (idleDemo (.resetLine true)) = .next t ∧ (t.regs.surf 3).tag ≠ (demo.regs.surf 3).tag)
    ∧ (∃ t, step (started (.cscFwd 0 1 false) demo) = .next t ∧ (t.regs.surf 1).tag ≠ (demo.regs.surf 1).tag)
    ∧ ∃ t, step (started (.cscInv 2 2 false) demo) = .next t ∧ (t.regs.surf 2).tag ≠ (demo.regs.surf 2).tag :=
  ⟨⟨_, rfl, by decide⟩, ⟨_, rfl, by decide⟩, ⟨_, rfl, by decide⟩, _, rfl, by decide⟩

end Sys2Proof.Tests
end

section
/-! PROOFS. The register space as the host uses it and the race mark (10_state.md rules R22, R27, R35, R40). -/

namespace Sys2Proof.Machine

/-! ### Register accesses -/

/-- Rule R22 in plain arithmetic. -/
theorem regAccessOk_iff (off width : Nat) :
    regAccessOk off width = true ↔ width = 4 ∧ off % 4 = 0 ∧ off < 0x80 := by
  simp [regAccessOk, and_assoc]

theorem hostMove_regWrite_refused {off width : Nat} (h : ¬ regAccessOk off width = true) (v : Word) (s : State) :
    hostMove (.regWrite off width v) s = .refused .registerAccess := if_neg h

theorem hostMove_regRead_refused {off width : Nat} (h : ¬ regAccessOk off width = true) (s : State) :
    hostMove (.regRead off width) s = .refused .registerAccess := if_neg h

/-- Settles O38: the model's check of a register access is rule R22's, and it alone decides whether the access goes on. -/
theorem registerAccessesAreAlignedWords : Obligations.RegisterAccessesAreAlignedWords := by
  intro s off width v
  rw [← regAccessOk_iff]
  exact ⟨fun h => ⟨hostMove_regWrite_refused h v s, hostMove_regRead_refused h s⟩,
    fun h => ⟨⟨_, hostMove_regWrite_ok h v s⟩, _, hostMove_regRead_ok h s⟩⟩

/-- A CMD write while idle is the start of a command (rule R40). -/
theorem writeReg_cmd_of_idle {s : State} (h : s.busy = false) (v : Word) : s.writeReg .cmd v = s.startCommand v := by
  simp [State.writeReg, h]

/-- Starting a command drops IRQ (rules R40, R191). -/
@[simp] theorem startCommand_irq (v : Word) (s : State) : (s.startCommand v).irq = false := rfl

/-- Settles O33: the step is the start of the command, whose effect rule R40 lists. -/
theorem cmdWriteStartsACommand : Obligations.CmdWriteStartsACommand := by
  intro s v rest hidle hs
  have hstep : step s = .next (({ s with schedule := rest } : State).startCommand v) := by
    rw [step_hostWr hs, writeReg_cmd_of_idle (s := { s with schedule := rest }) hidle]
  exact ⟨_, hstep, rfl, startCommand_busy .., startCommand_irq .., startCommand_cmd ..⟩

/-- An acknowledgement can change DONE and WBUSY only (rule R27). -/
theorem acknowledge_frame (v : Word) (s : State) :
    s.acknowledge v = { s with done := (s.acknowledge v).done, wbusy := (s.acknowledge v).wbusy } := rfl

/-- Acknowledging DONE drops IRQ (rule R191). -/
theorem acknowledge_irq {v : Word} (h : v.getLsbD 1 = true) (s : State) : (s.acknowledge v).irq = false := by
  simp [State.irq, h]

/-- Settles O35: a STATUS write is an acknowledgement, busy or not. -/
theorem statusWriteClearsDoneAndWbusy : Obligations.StatusWriteClearsDoneAndWbusy := by
  intro s v rest hs
  have hstep : step s = .next (({ s with schedule := rest } : State).acknowledge v) := step_hostWr hs
  refine ⟨_, hstep, acknowledge_frame .., fun h => ⟨?_, acknowledge_irq h _⟩, fun h => ?_, fun h => ?_, fun h => ?_⟩
    <;> simp only [acknowledge_done, acknowledge_wbusy, h, Bool.not_true, Bool.not_false, Bool.and_false,
      Bool.and_true]

/-! ### The race mark -/

@[simp] theorem writeReg_race (reg : Reg) (v : Word) (s : State) : (s.writeReg reg v).race = s.race := by
  rcases writeReg_cases reg v s with h | ⟨-, h⟩ | ⟨-, h⟩ | ⟨-, h⟩ | ⟨-, -, h⟩ | ⟨-, h⟩ <;> rw [h] <;> rfl

@[simp] theorem hostWrite_race (a width : Nat) (v : Word) (s : State) :
    (s.hostWrite a width v).race = (s.race || s.races a width) := congrArg State.race (hostWrite_frame a width v s)

@[simp] theorem hostRead_race (a width : Nat) (s : State) :
    (s.hostRead a width).race = (s.race || s.races a width) := rfl

@[simp] theorem assertReset_race (s : State) : s.assertReset.race = s.race :=
  (congrArg State.race (assertReset_frame s) :)

/-- The engine's move neither sets nor clears the race mark. -/
theorem engineMove_race {s t : State} (h : engineMove s = .next t) : t.race = s.race := by
  rcases engineMove_cases s with ⟨h', -⟩ | ⟨p, -, -, h'⟩
  · cases h'.symm.trans h; rfl
  · cases h'.symm.trans h; rfl

/-- The step is a host read or write of the buffer at `a`, of `width` bytes. -/
def HostOp.IsBufferAccess (op : HostOp) (a width : Nat) : Prop :=
  op = .memRead a width ∨ ∃ v, op = .memWrite a width v

/-- A host move that goes on sets the race mark exactly when it is a buffer access that races (rules R35, R221). -/
theorem hostMove_race_iff {op : HostOp} {s t : State} (h : hostMove op s = .next t) :
    t.race = true ↔ s.race = true ∨ ∃ a width, op.IsBufferAccess a width ∧ s.races a width = true := by
  rcases hostMove_cases h with ⟨off, width, v, rfl, -, rfl⟩ | ⟨off, width, rfl, -, rfl⟩
    | ⟨a, width, v, rfl, -, -, rfl⟩ | ⟨a, width, rfl, -, -, rfl⟩ | ⟨rfl, rfl⟩ | ⟨rfl, rfl⟩
    <;> simp [HostOp.IsBufferAccess]

/-- Settles O43: only a host move can set the race mark, and what a race is, `races_iff` says in rule R70's terms. -/
theorem raceMarkRecordsFootprintAccesses : Obligations.RaceMarkRecordsFootprintAccesses := by
  refine ⟨rfl, fun s t h => ?_⟩
  rcases step_cases s with ⟨hs, hstep⟩ | ⟨op, rest, hs, hstep⟩
  case inl =>
    have hrace : t.race = s.race := (engineMove_race (hstep.symm.trans h) :)
    rcases hs with hs | ⟨rest, hs⟩ <;> simp [hrace, hs]
  case inr =>
    rw [hostMove_race_iff (hstep.symm.trans h)]
    refine or_congr_right ⟨?_, ?_⟩
    · rintro ⟨a, width, hop, hraces⟩
      obtain ⟨p, hp, htouch⟩ := (races_iff ..).1 hraces
      exact ⟨p, op, rest, a, width, hp, hs, hop, htouch⟩
    · rintro ⟨p, op', rest', a, width, hp, hs', hop, htouch⟩
      cases hs.symm.trans hs'
      exact ⟨a, width, hop, (races_iff ..).2 ⟨p, hp, htouch⟩⟩

end Sys2Proof.Machine
end

section
/-! PROOFS. The buffer memory beside the command interface (20_memory.md rule R76): what a host write of the buffer leaves,
and which steps start a command. -/

namespace Sys2Proof.Machine

/-! ### What a host write of the buffer leaves -/

@[simp] theorem hostWrite_pending (a width : Nat) (v : Word) (s : State) : (s.hostWrite a width v).pending = s.pending :=
  (congrArg State.pending (hostWrite_frame a width v s) :)

@[simp] theorem hostWrite_cmd (a width : Nat) (v : Word) (s : State) : (s.hostWrite a width v).cmd = s.cmd :=
  (congrArg State.cmd (hostWrite_frame a width v s) :)

@[simp] theorem hostWrite_regs (a width : Nat) (v : Word) (s : State) : (s.hostWrite a width v).regs = s.regs :=
  (congrArg State.regs (hostWrite_frame a width v s) :)

@[simp] theorem hostWrite_statusWord (a width : Nat) (v : Word) (s : State) :
    (s.hostWrite a width v).statusWord = s.statusWord :=
  (congrArg State.statusWord (hostWrite_frame a width v s) :)

@[simp] theorem hostWrite_operands (a width : Nat) (v : Word) (s : State) :
    (s.hostWrite a width v).operands = s.operands :=
  (congrArg State.operands (hostWrite_frame a width v s) :)

/-- A buffer write that is not refused is `State.hostWrite`. -/
theorem eq_hostWrite_of_memWrite {a width : Nat} {v : Word} {s t : State}
    (h : hostMove (.memWrite a width v) s = .next t) : t = s.hostWrite a width v := by
  rcases hostMove_cases h with ⟨_, _, _, hop, -⟩ | ⟨_, _, hop, -⟩ | ⟨_, _, _, hop, -, -, ht⟩ | ⟨_, _, hop, -⟩
    | ⟨hop, -⟩ | ⟨hop, -⟩ <;> cases hop
  exact ht

/-! ### Which steps start a command -/

/-- The engine starts no command. -/
theorem engineMove_keeps_idle {s t : State} (h : engineMove s = .next t) (hidle : s.pending = none) :
    t.pending = none := by
  cases (engineMove_idle hidle).symm.trans h
  exact hidle

@[simp] theorem hostRead_pending (a width : Nat) (s : State) : (s.hostRead a width).pending = s.pending := rfl

@[simp] theorem assertReset_pending (s : State) : s.assertReset.pending = none :=
  (congrArg State.pending (assertReset_frame s) :)

/-- Of the register writes only one to CMD starts a command: that of the word written, with the copy of the live registers
(rules R40, R41). -/
theorem writeReg_starts {s : State} {reg : Reg} {v : Word} {p : Pending} (hidle : s.pending = none)
    (h : (s.writeReg reg v).pending = some p) : reg = .cmd ∧ p = ⟨v, s.regs⟩ := by
  rcases writeReg_cases reg v s with hw | ⟨-, hw⟩ | ⟨-, hw⟩ | ⟨-, hw⟩ | ⟨hcmd, -, hw⟩ | ⟨-, hw⟩ <;> rw [hw] at h
  case inr.inr.inr.inr.inl => cases h; exact ⟨hcmd, rfl⟩
  all_goals exact absurd (hidle.symm.trans h) (by simp)

/-- Of the host's moves only a CMD write starts a command (rules R40, R76). -/
theorem hostMove_starts {op : HostOp} {s t : State} {p : Pending} (h : hostMove op s = .next t)
    (hidle : s.pending = none) (hp : t.pending = some p) :
    op = .regWrite Reg.cmd.offset 4 p.word ∧ p.snap = s.regs := by
  rcases hostMove_cases h with ⟨off, width, v, rfl, hok, rfl⟩ | ⟨off, width, rfl, -, rfl⟩
    | ⟨a, width, v, rfl, -, -, rfl⟩ | ⟨a, width, rfl, -, -, rfl⟩ | ⟨rfl, rfl⟩ | ⟨rfl, rfl⟩
  case inl =>
    obtain ⟨hreg, rfl⟩ := writeReg_starts hidle hp
    obtain ⟨rfl, rfl⟩ := offset_of_ofIndex hok hreg (by simp)
    exact ⟨rfl, rfl⟩
  all_goals simp [hidle] at hp

/-- Settles O42: the frame of a buffer write holds the whole command interface, and of all moves only the host's CMD write
starts a command. -/
theorem bufferWritesNeverChangeACommand : Obligations.BufferWritesNeverChangeACommand := by
  refine ⟨fun s t a width v h => ?_, fun s t p h hidle hp => ?_⟩
  · rw [eq_hostWrite_of_memWrite h]
    exact ⟨hostWrite_pending .., hostWrite_cmd .., hostWrite_regs .., hostWrite_statusWord .., hostWrite_operands ..⟩
  · rcases step_cases s with ⟨-, hstep⟩ | ⟨op, rest, hs, hstep⟩
    · have hidle' : t.pending = none := engineMove_keeps_idle (hstep.symm.trans h) hidle
      exact absurd (hidle'.symm.trans hp) (by simp)
    · obtain ⟨rfl, hsnap⟩ := hostMove_starts (hstep.symm.trans h) hidle hp
      exact ⟨rest, hs, hsnap⟩

end Sys2Proof.Machine
end

section
/-! PROOFS. Decoding in plain arithmetic, and the completion of the pending command, legal or not (30_encoding.md rules R84
and R85, 60_exceptions.md rules R181, R185 and R186). -/

namespace Sys2Proof.Machine

/-! ### Decoding in plain arithmetic -/

theorem fieldsOf_op_eq_iff (w : Word) (x : BitVec 4) : (fieldsOf w).op = x ↔ w.toNat % 16 = x.toNat := by
  simp [fieldsOf, ← BitVec.toNat_inj]

theorem fieldsOf_s_eq_zero_iff (w : Word) : (fieldsOf w).s = 0#2 ↔ w.toNat / 16 % 4 = 0 := by
  simp [fieldsOf, ← BitVec.toNat_inj, Nat.shiftRight_eq_div_pow]

theorem fieldsOf_d_eq_zero_iff (w : Word) : (fieldsOf w).d = 0#2 ↔ w.toNat / 64 % 4 = 0 := by
  simp [fieldsOf, ← BitVec.toNat_inj, Nat.shiftRight_eq_div_pow]

theorem fieldsOf_r (w : Word) : (fieldsOf w).r = decide (w.toNat / 256 % 2 = 1) := by
  simp [fieldsOf, BitVec.getLsbD, Nat.testBit_eq_decide_div_mod_eq]

theorem fieldsOf_rsv_eq_zero_iff (w : Word) : (fieldsOf w).rsv = 0#23 ↔ w.toNat / 512 = 0 := by
  have hlt : w.toNat < 4294967296 := w.isLt
  simp only [fieldsOf, ← BitVec.toNat_inj, BitVec.extractLsb'_toNat, Nat.shiftRight_eq_div_pow, BitVec.toNat_ofNat]
  omega

theorem surfNum_s_fieldsOf {w : Word} {i : SurfNum} (h : i.val = w.toNat / 16 % 4) : surfNum (fieldsOf w).s = i :=
  Fin.ext (by simp [surfNum, fieldsOf, h, Nat.shiftRight_eq_div_pow])

theorem surfNum_d_fieldsOf {w : Word} {i : SurfNum} (h : i.val = w.toNat / 64 % 4) : surfNum (fieldsOf w).d = i :=
  Fin.ext (by simp [surfNum, fieldsOf, h, Nat.shiftRight_eq_div_pow])

/-- Rule R84 with the tests on a word's fields made on its number (rule R81). -/
theorem decode_eq (w : Word) :
    decode w =
      if w.toNat / 512 ≠ 0 then none
      else if w.toNat % 16 = 1 then
        some (.cscFwd (surfNum (fieldsOf w).s) (surfNum (fieldsOf w).d) (decide (w.toNat / 256 % 2 = 1)))
      else if w.toNat % 16 = 2 then
        some (.cscInv (surfNum (fieldsOf w).s) (surfNum (fieldsOf w).d) (decide (w.toNat / 256 % 2 = 1)))
      else if w.toNat % 16 = 3 ∧ w.toNat / 64 % 4 = 0 ∧ w.toNat / 256 % 2 = 0 then some (.pack (surfNum (fieldsOf w).s))
      else if w.toNat % 16 = 4 ∧ w.toNat / 16 % 4 = 0 ∧ w.toNat / 64 % 4 = 0 ∧ w.toNat / 256 % 2 = 0 then some .unpack
      else none := by
  simp only [decode, decodeFields, ne_eq, fieldsOf_op_eq_iff, fieldsOf_s_eq_zero_iff, fieldsOf_d_eq_zero_iff,
    fieldsOf_r, fieldsOf_rsv_eq_zero_iff, BitVec.toNat_ofNat, Nat.reducePow, Nat.reduceMod, decide_eq_false_iff_not,
    Nat.mod_two_ne_one]

/-- The words that decode to ILLEGAL are the reserved and illegal encodings (rules R84, R85). -/
theorem decode_eq_none_iff (w : Word) : decode w = none ↔ IllegalWord w := by
  rw [decode_eq, IllegalWord]
  split_ifs <;> simp only [true_iff, false_iff] <;> omega

/-! ### The code of a completion -/

/-- A code that no check lists is not the one that the checks report. -/
theorem fail_err_ne_of_firstError {cs : List (Bool × ErrCode)} {e e' : ErrCode} (h : firstError cs = some e)
    (hcs : e' ∉ cs.map Prod.snd) : (Result.fail e).err ≠ e' := by
  rintro rfl
  obtain ⟨c, hc, rfl⟩ := Option.map_eq_some_iff.1 h
  exact hcs (List.mem_map_of_mem (List.mem_of_find?_eq_some hc))

theorem cscResult_err_ne_illegal (pixel : Params → Nat → Byte → Byte → Byte → List Byte) (tag : Tag)
    (src dst : SurfNum) (range : Bool) (s : State) :
    (cscResult pixel tag src dst range s).err ≠ .illegalCommand := by
  cases h : cscError src dst range s.operands s.params.memBytes with
  | some e =>
    rw [cscResult_of_error h]
    exact fail_err_ne_of_firstError h (by simp)
  | none => simp [cscResult_of_wellFormed ((cscError_eq_none_iff ..).1 h)]

theorem packResult_err_ne_illegal (pal : SurfNum) (s : State) : (packResult pal s).err ≠ .illegalCommand := by
  cases h : packError pal s.operands s.params.memBytes with
  | some e =>
    rw [packResult_of_error h]
    exact fail_err_ne_of_firstError h (by simp)
  | none =>
    have hwf := (packError_eq_none_iff ..).1 h
    cases hb : firstBadIndex s.operands.kNat s.operands.npix
      (fun p => s.mem.readByte (s.operands.idxBase.toNat + p)) with
    | some p => simp [packResult_of_badIndex hwf hb, indexError]
    | none => simp [packResult_of_ok hwf hb]

theorem unpackResult_err_ne_illegal (s : State) : (unpackResult s).err ≠ .illegalCommand := by
  cases h : unpackError s.operands s.params.memBytes with
  | some e =>
    rw [unpackResult_of_error h]
    exact fail_err_ne_of_firstError h (by simp)
  | none =>
    have hwf := (unpackError_eq_none_iff ..).1 h
    cases hb : firstBadIndex s.operands.kNat s.operands.npix (unpackIndexAt s.operands s.mem) with
    | some p => simp [unpackResult_of_badIndex hwf hb, indexError]
    | none => simp [unpackResult_of_ok hwf hb]

/-- No command reports ILLEGAL_COMMAND: that code is left to the words that are no command (rules R181, R184). -/
theorem commandResult_err_ne_illegal (i : Instr) (s : State) : (commandResult i s).err ≠ .illegalCommand := by
  cases i with
  | cscFwd src dst range => exact cscResult_err_ne_illegal _ _ _ _ _ s
  | cscInv src dst range => exact cscResult_err_ne_illegal _ _ _ _ _ s
  | pack pal => exact packResult_err_ne_illegal pal s
  | unpack => exact unpackResult_err_ne_illegal s

/-! ### The completion step -/

theorem pendingResult_of_none {p : Pending} (h : decode p.word = none) (s : State) :
    pendingResult p s = .fail .illegalCommand := by
  simp only [pendingResult, h]

theorem pendingResult_err_eq_illegal_iff (p : Pending) (s : State) :
    (pendingResult p s).err = .illegalCommand ↔ IllegalWord p.word := by
  rw [← decode_eq_none_iff]
  cases hd : decode p.word with
  | none => simp [pendingResult_of_none hd, Result.fail]
  | some i => simpa [pendingResult, hd] using commandResult_err_ne_illegal i s

/-- The engine's next move completes the pending command where no reset is asserted (rules R73, R186). -/
theorem step_completes {s : State} {p : Pending} (hp : s.pending = some p) (hr : s.resetAsserted = false)
    (hn : s.EngineNext) :
    step s = .next (({ s with schedule := s.schedule.tail } : State).complete
      (pendingResult p { s with schedule := s.schedule.tail })) := by
  rw [step_engineNext hn, engineMove_enabled (s := { s with schedule := s.schedule.tail }) hr hp]

/-! ### The obligations -/

/-- Settles O3: each clause is the branch of `decode_eq` that its hypotheses select, or an illegal encoding; and an ILLEGAL
word is started by the CMD write and completed by the engine's move. -/
theorem decodeFollowsTheFieldTable : Obligations.DecodeFollowsTheFieldTable := by
  intro w op s d r rsv
  have illegal : IllegalWord w → decode w = none := (decode_eq_none_iff w).2
  refine ⟨fun h => illegal (.inr (.inl h)), ?fwd, ?inv, ?pack, fun h h' => illegal (.inr (.inr (.inl ⟨h, h'⟩))), ?unpack,
    fun h h' => illegal (.inr (.inr (.inr ⟨h, h'⟩))), fun h => illegal (.inl h), ?run⟩
  case fwd =>
    intro src dst hrsv hop hsrc hdst
    rw [decode_eq, if_neg (not_not.2 hrsv), if_pos hop, surfNum_s_fieldsOf hsrc, surfNum_d_fieldsOf hdst]
  case inv =>
    intro src dst hrsv hop hsrc hdst
    rw [decode_eq, if_neg (not_not.2 hrsv), if_neg (by omega), if_pos hop, surfNum_s_fieldsOf hsrc,
      surfNum_d_fieldsOf hdst]
  case pack =>
    intro pal hrsv hop hd hr hpal
    rw [decode_eq, if_neg (not_not.2 hrsv), if_neg (by omega), if_neg (by omega), if_pos ⟨hop, hd, hr⟩,
      surfNum_s_fieldsOf hpal]
  case unpack =>
    intro hrsv hop hs hd hr
    rw [decode_eq, if_neg (not_not.2 hrsv), if_neg (by omega), if_neg (by omega), if_neg (by omega),
      if_pos ⟨hop, hs, hd, hr⟩]
  case run =>
    intro st rest hdec hidle hreset hsched
    have hstart : step st = .next (({ st with schedule := .engine :: rest } : State).startCommand w) := by
      rw [step_hostWr hsched, writeReg_cmd_of_idle (s := { st with schedule := .engine :: rest }) hidle]
    have hpending := startCommand_pending w { st with schedule := .engine :: rest }
    have hcomplete := step_completes hpending hreset (.inr ⟨rest, rfl⟩)
    refine ⟨_, _, hstart, hpending, hcomplete, ?_, complete_busy .., complete_done ..⟩
    rw [complete_err, pendingResult_of_none (p := ⟨w, st.regs⟩) hdec, Result.fail]

/-- Settles O4: the step is the completion of the pending result, which for an illegal word is a failure that writes
nothing and for a command never has the code ILLEGAL_COMMAND. -/
theorem illegalWordsCompleteWithIllegalCommand : Obligations.IllegalWordsCompleteWithIllegalCommand := by
  intro s p hp hr hn
  refine ⟨_, step_completes hp hr hn, pendingResult_err_eq_illegal_iff .., fun hill => ?_, complete_busy ..,
    completionFrame_complete ..⟩
  rw [pendingResult_of_none ((decode_eq_none_iff _).2 hill), statusWord_err]
  exact ⟨rfl, rfl, rfl, rfl, rfl⟩

end Sys2Proof.Machine
end

section
/-! PROOFS. The checks of the two CSC commands, and that the commands read no tag (40_csc.md rules R111 to R113 and
R115). -/

namespace Sys2Proof.Machine

/-! ### What the two CSC commands share -/

/-- Both CSC commands complete with a result of the body they share, each with its own pixel function and tag. -/
theorem exec_csc {src dst : SurfNum} {range : Bool} {i : Instr}
    (h : i = .cscFwd src dst range ∨ i = .cscInv src dst range) :
    ∃ pixel tag, ∀ s, exec i s = .next (s.complete (cscResult pixel tag src dst range s)) := by
  obtain rfl | rfl := h
  · exact ⟨fwdPixel, .chroma, exec_eq _⟩
  · exact ⟨invPixel, .color, exec_eq _⟩

section
variable (pixel : Params → Nat → Byte → Byte → Byte → List Byte) (tag : Tag) {src dst : SurfNum} {range : Bool}
  {s : State}

/-- On registers that are not well formed the result is a failure, which writes nothing (rules R111, R112, R185). -/
theorem cscResult_eq_fail_of_not_wellFormed (h : ¬ CscWellFormed src dst range s.operands s.params.memBytes) :
    ∃ e, e ≠ .ok ∧ cscResult pixel tag src dst range s = .fail e := by
  by_cases hbad : CscBadArgument src dst range s.operands
  · exact ⟨.invalidArgument, by decide, cscResult_of_error (cscError_of_bad hbad)⟩
  · have hout : ¬ CscInBounds src dst s.operands s.params.memBytes :=
      fun hin => h ((cscWellFormed_iff ..).2 ⟨hbad, hin⟩)
    exact ⟨.outOfBounds, by decide, cscResult_of_error (cscError_of_outOfBounds hbad hout)⟩

theorem cscResult_err_eq_ok_iff :
    (cscResult pixel tag src dst range s).err = .ok ↔ CscWellFormed src dst range s.operands s.params.memBytes := by
  constructor
  · intro hok
    by_contra hwf
    obtain ⟨e, hne, he⟩ := cscResult_eq_fail_of_not_wellFormed pixel tag hwf
    rw [he] at hok
    exact hne hok
  · intro hwf
    rw [cscResult_of_wellFormed hwf]

end

/-! ### A failed command -/

/-- A failure's completion leaves the buffer, the configuration registers and ERR_INFO (rule R185). -/
theorem complete_fail_unchanged (e : ErrCode) (s : State) :
    (s.complete (.fail e)).mem = s.mem ∧ (s.complete (.fail e)).regs = s.regs
      ∧ (s.complete (.fail e)).errInfo = s.errInfo := ⟨rfl, rfl, rfl⟩

/-- Settles O14: the code is that of the first check of `cscError` that fails, and a code other than OK is a failure's,
whose completion writes nothing. -/
theorem cscReportsTheFirstFailedCheck : Obligations.CscReportsTheFirstFailedCheck := by
  intro src dst range i s hi
  obtain ⟨pixel, tag, hexec⟩ := exec_csc hi
  have hok := cscResult_err_eq_ok_iff pixel tag (src := src) (dst := dst) (range := range) (s := s)
  refine ⟨_, hexec s, ?bad, ?out, hok, ?fail, completionFrame_complete ..⟩
  case bad =>
    intro hbad
    rw [cscResult_of_error (cscError_of_bad hbad)]; rfl
  case out =>
    intro hbad hout
    rw [cscResult_of_error (cscError_of_outOfBounds hbad hout)]; rfl
  case fail =>
    intro hne
    obtain ⟨e, -, he⟩ := cscResult_eq_fail_of_not_wellFormed pixel tag (hne ∘ hok.2)
    rw [he]
    exact complete_fail_unchanged e s

/-! ### Tags -/

@[simp] theorem surfaceExtent_setTag (c : ConfigRegs) (i j : SurfNum) (t : Tag) :
    surfaceExtent ((c.setTag j t).surf i) = surfaceExtent (c.surf i) := by simp [surfaceExtent]

@[simp] theorem cscFirst_setTag (range : Bool) (c : ConfigRegs) (j : SurfNum) (t : Tag) :
    cscFirst range (c.setTag j t) = cscFirst range c := rfl

@[simp] theorem cscCount_setTag (src : SurfNum) (range : Bool) (c : ConfigRegs) (j : SurfNum) (t : Tag) :
    cscCount src range (c.setTag j t) = cscCount src range c := by simp [cscCount]

/-- No check of a CSC command looks at a tag (rule R113). -/
@[simp] theorem cscError_setTag (src dst : SurfNum) (range : Bool) (c : ConfigRegs) (n : Nat) (j : SurfNum) (t : Tag) :
    cscError src dst range (c.setTag j t) n = cscError src dst range c n := by
  simp [cscError, cscBadArgument, cscOutOfBounds]

/-- The whole result of a CSC command is the same for every tag on every surface (rule R113). -/
theorem cscResult_retag (pixel : Params → Nat → Byte → Byte → Byte → List Byte) (tag : Tag) (src dst : SurfNum)
    (range : Bool) (s : State) (j : SurfNum) (x : Tag) :
    cscResult pixel tag src dst range (s.retag j x) = cscResult pixel tag src dst range s := by
  have hparams : (s.retag j x).params = s.params := rfl
  have hmem : (s.retag j x).mem = s.mem := rfl
  have hdraws : (s.retag j x).draws = s.draws := rfl
  simp [cscResult, operands_retag, hparams, hmem, hdraws]

theorem surf_setTag_self_tag (c : ConfigRegs) (i : SurfNum) (t : Tag) : ((c.setTag i t).surf i).tag = t := by
  simp [surf_setTag]

/-- A CSC command that succeeds leaves its own tag on its destination (rules R120, R125). -/
theorem tag_of_complete_cscResult {pixel : Params → Nat → Byte → Byte → Byte → List Byte} {tag : Tag}
    {src dst : SurfNum} {range : Bool} {s : State} (hok : (cscResult pixel tag src dst range s).err = .ok) (u : State) :
    ((u.complete (cscResult pixel tag src dst range s)).regs.surf dst).tag = tag := by
  rw [cscResult_of_wellFormed ((cscResult_err_eq_ok_iff ..).1 hok)]
  exact surf_setTag_self_tag u.regs dst tag

/-- Settles O15: the two runs complete with one and the same result. -/
theorem convertersReadNoTag : Obligations.ConvertersReadNoTag := by
  intro src dst range i s j x hi
  obtain ⟨pixel, tag, hexec⟩ := exec_csc hi
  have hretag := hexec (s.retag j x)
  rw [cscResult_retag] at hretag
  refine ⟨_, _, hexec s, hretag, rfl, rfl, rfl, fun hok => ?_⟩
  rw [tag_of_complete_cscResult hok, tag_of_complete_cscResult hok]

end Sys2Proof.Machine
end

section
/-! PROOFS. The packed format: bits per pixel, the packed size and the RGB565 word (41_packer.md rules R140 to R142 and
R146). -/

namespace Sys2Proof.Machine

/-! ### Bits per pixel -/

/-- The search of `ceilLog2` finds the ceiling logarithm to base 2 (rules R10, R140). -/
theorem bpp_eq_clog (k : Nat) : bpp k = Nat.clog 2 k := by
  have hself : Nat.clog 2 k < k + 1 := Nat.lt_succ_of_le (Nat.clog_le_of_le_pow Nat.lt_two_pow_self.le)
  have hfind : (List.range (k + 1)).find? (fun b => decide (k ≤ 2 ^ b)) = some (Nat.clog 2 k) := by
    rw [List.find?_range_eq_some]
    refine ⟨decide_eq_true (Nat.le_pow_clog one_lt_two k), List.mem_range.2 hself, fun b hb => ?_⟩
    simpa using (Nat.lt_clog_iff_pow_lt one_lt_two).1 hb
  rw [bpp, ceilLog2, hfind, Option.getD_some]

/-- `bpp` is the lower adjoint of `2 ^ ·` (rule R140). -/
theorem bpp_le_iff {k b : Nat} : bpp k ≤ b ↔ k ≤ 2 ^ b := by
  rw [bpp_eq_clog, Nat.clog_le_iff_le_pow one_lt_two]

theorem le_two_pow_bpp (k : Nat) : k ≤ 2 ^ bpp k := bpp_le_iff.1 le_rfl

theorem bpp_eq_zero_iff {k : Nat} (hk : 1 ≤ k) : bpp k = 0 ↔ k = 1 := by
  rw [← Nat.le_zero, bpp_le_iff]
  omega

/-- A row of rule R140's table: `bpp k` is `b + 1` for `k` above `2 ^ b` and up to `2 ^ (b + 1)`. -/
theorem bpp_eq_succ {k b : Nat} (hlow : 2 ^ b < k) (hhigh : k ≤ 2 ^ (b + 1)) : bpp k = b + 1 := by
  have hle : bpp k ≤ b + 1 := bpp_le_iff.2 hhigh
  have hgt : ¬ bpp k ≤ b := fun h => absurd (bpp_le_iff.1 h) (Nat.not_le.2 hlow)
  omega

theorem bpp_eq_size {k : Nat} (hk : 1 ≤ k) : bpp k = Nat.size (k - 1) := by
  have hiff : ∀ b, bpp k ≤ b ↔ Nat.size (k - 1) ≤ b := fun b => by
    rw [bpp_le_iff, Nat.size_le]
    omega
  exact le_antisymm ((hiff _).2 le_rfl) ((hiff _).1 le_rfl)

/-- Settles O16: all of it is that `bpp k ≤ b` says `k ≤ 2 ^ b`, the table's rows through `bpp_eq_succ`. -/
theorem bitsPerPixelIsTheLeastExponent : Obligations.BitsPerPixelIsTheLeastExponent := by
  intro k hk
  refine ⟨le_two_pow_bpp k, fun _ => bpp_le_iff.2, bpp_eq_size hk, (bpp_eq_zero_iff hk).2, fun h => ?_, ?_⟩
  · exact bpp_eq_succ (by omega) (by omega)
  · refine ⟨?_, ?_, ?_, ?_, ?_, ?_, ?_⟩ <;> exact fun hlow hhigh => bpp_eq_succ hlow hhigh

/-! ### The packed size -/

theorem packedSize_eq (k npix : Nat) : packedSize k npix = 2 * k + (npix * bpp k + 7) / 8 := rfl

/-- Settles O17: without a bit to store the index section's length rounds up from 0 (rule R146). -/
theorem packedSizeAndTheEmptyIndexSection : Obligations.PackedSizeAndTheEmptyIndexSection := by
  intro k npix hk
  refine ⟨packedSize_eq k npix, bpp_eq_zero_iff hk, fun h => ?_⟩
  have hbits : npix * bpp k = 0 := Nat.mul_eq_zero.2 h.symm
  refine ⟨by rw [packedSize_eq, hbits]; rfl, fun m idx => List.eq_nil_of_length_eq_zero ?_⟩
  rw [indexBytes_length, hbits, ceilDiv_eight]

/-! ### The RGB565 word -/

theorem rgb565_red (b g r : Byte) : (rgb565 b g r).extractLsb' 11 5 = r.extractLsb' 3 5 := by
  ext i hi
  interval_cases i <;> simp [rgb565]

theorem rgb565_green (b g r : Byte) : (rgb565 b g r).extractLsb' 5 6 = g.extractLsb' 2 6 := by
  ext i hi
  interval_cases i <;> simp [rgb565]

theorem rgb565_blue (b g r : Byte) : (rgb565 b g r).extractLsb' 0 5 = b.extractLsb' 3 5 := by
  ext i hi
  interval_cases i <;> simp [rgb565]

/-- A 16-bit word is the sum of its three fields 15:11, 10:5 and 4:0 at their places. -/
theorem toNat_eq_fields565 (v : Half) :
    v.toNat = (v.extractLsb' 11 5).toNat * 2048 + (v.extractLsb' 5 6).toNat * 32 + (v.extractLsb' 0 5).toNat := by
  have hv : v.toNat < 65536 := v.isLt
  simp only [BitVec.extractLsb'_toNat, Nat.shiftRight_eq_div_pow]
  omega

/-- The top bits of a byte, from bit `n` up, are its quotient by `2 ^ n`. -/
theorem toNat_extractLsb'_top (x : Byte) {n len : Nat} (h : n + len = 8) :
    (x.extractLsb' n len).toNat = x.toNat / 2 ^ n := by
  rw [BitVec.extractLsb'_toNat, Nat.shiftRight_eq_div_pow, Nat.mod_eq_of_lt]
  rw [Nat.div_lt_iff_lt_mul (Nat.two_pow_pos n), ← pow_add, Nat.add_comm len n, h]
  exact x.isLt

/-- Settles O18: the three fields one by one, and the number put together from them. -/
theorem rgb565DropsTheLowBits : Obligations.Rgb565DropsTheLowBits := by
  intro b g r
  refine ⟨?_, rgb565_red b g r, rgb565_green b g r, rgb565_blue b g r⟩
  rw [toNat_eq_fields565, rgb565_red, rgb565_green, rgb565_blue, toNat_extractLsb'_top r rfl,
    toNat_extractLsb'_top g rfl, toNat_extractLsb'_top b rfl]
  rfl

end Sys2Proof.Machine
end

section
/-! PROOFS. The codes PACK and UNPACK report, and the number UNPACK decodes for a pixel (41_packer.md rules R144, R150,
R155 and R160). -/

namespace Sys2Proof.Machine

/-! ### The decoded index as a number -/

/-- The bits of `x` below `w`, summed by their weights, are `x` modulo `2 ^ w`. -/
theorem sum_range_testBit (x w : Nat) :
    ((List.range w).map fun j => if x.testBit j then 2 ^ j else 0).sum = x % 2 ^ w := by
  induction w with
  | zero => simp [Nat.mod_one]
  | succ w ih =>
    have hbit : (if x.testBit w then 2 ^ w else 0) = 2 ^ w * (x / 2 ^ w % 2) := by
      rw [← Nat.toNat_testBit]
      cases x.testBit w <;> simp
    rw [List.range_succ, List.map_append, List.sum_append, ih, Nat.mod_pow_succ, List.map_singleton,
      List.sum_singleton, hbit]

theorem bpp_le_eight {k : Nat} (hk : k ≤ 256) : bpp k ≤ 8 := bpp_le_iff.2 hk

/-- Bit `j` of the decoded index of pixel `p` is stream bit `p · bpp + j`; the bits from `bpp` up are 0 (rule R160). -/
theorem getLsbD_unpackIndexAt {c : ConfigRegs} (hk : c.kNat ≤ 256) (m : Memory) (p j : Nat) :
    (unpackIndexAt c m p).getLsbD j = (decide (j < bpp c.kNat) && streamBit c m (p * bpp c.kNat + j)) := by
  have hbits : (unpackIndexAt c m p).getLsbD j
      = (decide (j < 8) && (decide (j < bpp c.kNat) && streamBit c m (p * bpp c.kNat + j))) := by
    rw [unpackIndexAt, unpackedIndex, getLsbD_byteOfBits, streamBit]
  have hw : j < bpp c.kNat → j < 8 := fun h => lt_of_lt_of_le h (bpp_le_eight hk)
  rw [hbits, ← Bool.and_assoc, ← Bool.decide_and, decide_eq_decide.2 (and_iff_right_of_imp hw)]

theorem toNat_unpackIndexAt {c : ConfigRegs} (hk : c.kNat ≤ 256) (m : Memory) (p : Nat) :
    (unpackIndexAt c m p).toNat = streamIndex c m p := by
  have hlt : (unpackIndexAt c m p).toNat < 2 ^ bpp c.kNat := Nat.lt_pow_two_of_testBit _ fun j hj => by
    rw [BitVec.testBit_toNat, getLsbD_unpackIndexAt hk, decide_eq_false (Nat.not_lt.2 hj), Bool.false_and]
  rw [← Nat.mod_eq_of_lt hlt, ← sum_range_testBit, streamIndex]
  congr 1
  refine List.map_congr_left fun j hj => ?_
  rw [BitVec.testBit_toNat, getLsbD_unpackIndexAt hk, decide_eq_true (List.mem_range.1 hj), Bool.true_and]

/-! ### The code of a result -/

/-- A result that is INDEX_OUT_OF_RANGE where the search finds a bad index, else OK, has the code that rule R150's last
check gives. -/
theorem err_iff_of_firstBadIndex {r : Result} {k npix : Nat} {index : Nat → Byte}
    (hbad : ∀ p, firstBadIndex k npix index = some p → r.err = .indexOutOfRange)
    (hok : firstBadIndex k npix index = none → r.err = .ok) :
    (r.err = .indexOutOfRange ↔ ∃ p, p < npix ∧ k ≤ (index p).toNat)
    ∧ (r.err = .ok ↔ ∀ p, p < npix → (index p).toNat < k) := by
  cases h : firstBadIndex k npix index with
  | some p =>
    obtain ⟨hk, hp, -⟩ := firstBadIndex_eq_some.1 h
    rw [hbad p h]
    exact ⟨iff_of_true rfl ⟨p, hp, hk⟩, iff_of_false nofun fun hall => absurd (hall p hp) (Nat.not_lt.2 hk)⟩
  | none =>
    have hall := firstBadIndex_eq_none.1 h
    rw [hok h]
    exact ⟨iff_of_false nofun fun ⟨p, hp, hk⟩ => absurd (hall p hp) (Nat.not_lt.2 hk), iff_of_true rfl hall⟩

theorem packResult_err_iff {pal : SurfNum} {s : State} (hwf : PackWellFormed pal s.operands s.params.memBytes) :
    ((packResult pal s).err = .indexOutOfRange
      ↔ ∃ p, p < s.operands.npix ∧ s.operands.kNat ≤ storedIndex s.operands s.mem p)
    ∧ ((packResult pal s).err = .ok
      ↔ ∀ p, p < s.operands.npix → storedIndex s.operands s.mem p < s.operands.kNat) :=
  err_iff_of_firstBadIndex (fun p hp => by rw [packResult_of_badIndex hwf hp]; rfl)
    (fun hp => by rw [packResult_of_ok hwf hp])

theorem unpackResult_err_iff {s : State} (hwf : UnpackWellFormed s.operands s.params.memBytes) :
    ((unpackResult s).err = .indexOutOfRange
      ↔ ∃ p, p < s.operands.npix ∧ s.operands.kNat ≤ streamIndex s.operands s.mem p)
    ∧ ((unpackResult s).err = .ok
      ↔ ∀ p, p < s.operands.npix → streamIndex s.operands s.mem p < s.operands.kNat) := by
  obtain ⟨-, hk⟩ := hwf.1
  simp only [← toNat_unpackIndexAt hk]
  exact err_iff_of_firstBadIndex (fun p hp => by rw [unpackResult_of_badIndex hwf hp]; rfl)
    (fun hp => by rw [unpackResult_of_ok hwf hp])

/-- A PACK completes with OK exactly on registers that pass checks 1 to 6 with every index below `k` (rule R150). -/
theorem packResult_err_eq_ok_iff (pal : SurfNum) (s : State) :
    (packResult pal s).err = .ok ↔ PackWellFormed pal s.operands s.params.memBytes
      ∧ ∀ p, p < s.operands.npix → storedIndex s.operands s.mem p < s.operands.kNat := by
  cases h : packError pal s.operands s.params.memBytes with
  | some e =>
    have hnot : ¬ PackWellFormed pal s.operands s.params.memBytes := by
      rw [← packError_eq_none_iff, h]
      nofun
    rw [packResult_of_error h]
    exact iff_of_false (fail_err_ne_of_firstError h (by simp)) fun hwf => hnot hwf.1
  | none =>
    have hwf := (packError_eq_none_iff ..).1 h
    rw [(packResult_err_iff hwf).2, and_iff_right hwf]

/-! ### The first failed check -/

/-- What the completion of a command with register checks leaves: on a check that fails its code and nothing else, on
registers that pass the result's own code (rules R150, R185). -/
theorem exec_reports_check {i : Instr} {s : State} {check : Option ErrCode} {P Q : Prop}
    (hfail : ∀ code, check = some code → commandResult i s = .fail code)
    (hpass : check = none →
      ((commandResult i s).err = .indexOutOfRange ↔ P) ∧ ((commandResult i s).err = .ok ↔ Q)) :
    ∃ t, exec i s = .next t ∧ CompletionFrame s t
      ∧ (∀ code, check = some code → t.err = code ∧ t.mem = s.mem ∧ t.regs = s.regs ∧ t.errInfo = s.errInfo)
      ∧ (check = none → (t.err = .indexOutOfRange ↔ P) ∧ (t.err = .ok ↔ Q)) := by
  refine ⟨_, exec_eq i s, completionFrame_complete .., fun code hcode => ?_, hpass⟩
  rw [hfail code hcode]
  exact ⟨rfl, complete_fail_unchanged code s⟩

/-- Settles O21: the register checks report the first check that holds (`packError_of_check`, `unpackError_of_check`),
and where they report none the registers are well formed and the search for a bad index decides. -/
theorem packerReportsTheFirstFailedCheck : Obligations.PackerReportsTheFirstFailedCheck := by
  constructor
  · intro pal s check hcheck
    have herror := packError_of_check hcheck
    exact exec_reports_check (fun code hcode => packResult_of_error (herror.trans hcode))
      fun hnone => packResult_err_iff ((packError_eq_none_iff ..).1 (herror.trans hnone))
  · intro s check hcheck
    have herror := unpackError_of_check hcheck
    exact exec_reports_check (fun code hcode => unpackResult_of_error (herror.trans hcode))
      fun hnone => unpackResult_err_iff ((unpackError_eq_none_iff ..).1 (herror.trans hnone))

end Sys2Proof.Machine
end

section
/-! PROOFS. The packed image that PACK writes, and PACK followed by UNPACK (41_packer.md rules R143 to R145, R155, R160
and R165). -/

namespace Sys2Proof.Machine

/-! ### The index section's bits -/

/-- Stream bit `p · w + j` is bit `j` of index `p` (rule R144). -/
theorem indexStreamBit_eq (m : Memory) (idx : Nat) {w p j : Nat} (hj : j < w) :
    indexStreamBit m idx w (p * w + j) = (m.readByte (idx + p)).getLsbD j := by
  have hdiv : (p * w + j) / w = p := by
    rw [Nat.mul_comm, Nat.mul_add_div (Nat.zero_lt_of_lt hj), Nat.div_eq_of_lt hj, Nat.add_zero]
  have hmod : (p * w + j) % w = j := Nat.mul_add_mod_of_lt hj
  rw [indexStreamBit, hdiv, hmod]

/-! ### Reading the packed image back -/

section
variable {m0 m : Memory} {o base k idx w npix : Nat}

/-- The packed buffer is the palette section and right behind it the index section (rules R143, R144). -/
theorem writeBytes_packed :
    m.writeBytes o (paletteBytes m0 base k ++ indexBytes m0 idx w npix)
      = (m.writeBytes o (paletteBytes m0 base k)).writeBytes (o + 2 * k) (indexBytes m0 idx w npix) := by
  rw [writeBytes_append, paletteBytes_length]

theorem readByte_packed_low {i : Nat} (hi : i < k) :
    (m.writeBytes o (paletteBytes m0 base k ++ indexBytes m0 idx w npix)).readByte (o + 2 * i)
      = (rgb565 (m0.readByte (base + 3 * i)) (m0.readByte (base + 3 * i + 1))
          (m0.readByte (base + 3 * i + 2))).extractLsb' 0 8 := by
  rw [writeBytes_packed, readByte_writeBytes_outside (by omega), readByte_palette_low _ _ _ _ hi]

theorem readByte_packed_high {i : Nat} (hi : i < k) :
    (m.writeBytes o (paletteBytes m0 base k ++ indexBytes m0 idx w npix)).readByte (o + 2 * i + 1)
      = (rgb565 (m0.readByte (base + 3 * i)) (m0.readByte (base + 3 * i + 1))
          (m0.readByte (base + 3 * i + 2))).extractLsb' 8 8 := by
  rw [writeBytes_packed, readByte_writeBytes_outside (by omega), readByte_palette_high _ _ _ _ hi]

/-- A bit of the packed buffer's index section: the index stream's bit, and 0 from the stream's end on (rules R144,
R145). -/
theorem streamBit_packed (c : ConfigRegs) {q : Nat} (hq : q < 8 * ceilDiv (npix * w) 8) :
    streamBit c (m.writeBytes c.outBase.toNat (paletteBytes m0 base c.kNat ++ indexBytes m0 idx w npix)) q
      = (decide (q < npix * w) && indexStreamBit m0 idx w q) := by
  rw [streamBit, writeBytes_packed, readByte_indexSection _ _ _ _ _ _ (Nat.div_lt_of_lt_mul hq), packedIndexByte,
    getLsbD_byteOfBits, decide_eq_true (Nat.mod_lt q (by norm_num)), Bool.true_and, Nat.div_add_mod]

theorem streamBit_packed_index (c : ConfigRegs) {p j : Nat} (hp : p < npix) (hj : j < w) :
    streamBit c (m.writeBytes c.outBase.toNat (paletteBytes m0 base c.kNat ++ indexBytes m0 idx w npix)) (p * w + j)
      = (m0.readByte (idx + p)).getLsbD j := by
  have hlt : p * w + j < npix * w := by
    calc p * w + j < p * w + w := Nat.add_lt_add_left hj _
      _ = (p + 1) * w := (Nat.succ_mul p w).symm
      _ ≤ npix * w := Nat.mul_le_mul_right w hp
  have hsection : npix * w ≤ 8 * ceilDiv (npix * w) 8 := by
    rw [ceilDiv_eight]
    omega
  rw [streamBit_packed c (lt_of_lt_of_le hlt hsection), decide_eq_true hlt, Bool.true_and,
    indexStreamBit_eq _ _ hj]

end

/-! ### PACK -/

/-- Settles O19: PACK writes the palette section and behind it the index section, and each clause reads one of them
back. -/
theorem packWritesThePackedImage : Obligations.PackWritesThePackedImage := by
  intro pal s c w hwf hidx
  have hsize : c.outSize.toNat = 2 * c.kNat + ceilDiv (c.npix * w) 8 := by
    obtain ⟨-, -, -, -, -, -, -, -, hsize⟩ := hwf
    exact hsize
  have hexec := exec_eq (.pack pal) s
  rw [show commandResult (.pack pal) s = _ from packResult_of_ok hwf (firstBadIndex_eq_none.2 hidx)] at hexec
  refine ⟨_, hexec, ?palette, ?index, ?padding, hsize, ?only, rfl, rfl, rfl, completionFrame_complete ..⟩
  case palette =>
    exact fun i hi => ⟨readByte_packed_low hi, readByte_packed_high hi⟩
  case index =>
    exact fun p j hp hj => streamBit_packed_index c hp hj
  case padding =>
    intro q hend hq
    rw [complete_mem, streamBit_packed c hq, decide_eq_false (Nat.not_lt.2 hend), Bool.false_and]
  case only =>
    rw [hsize, ← paletteBytes_length s.mem (c.surf pal).base.toNat, ← indexBytes_length s.mem c.idxBase.toNat,
      ← List.length_append]
    exact onlyWithin_writeBytes _ _ _

/-! ### UNPACK after PACK -/

/-- UNPACK decodes the byte whose bits stand in the stream, where that byte fits in `bpp` bits (rules R144, R160). -/
theorem unpackIndexAt_eq {c : ConfigRegs} (hk : c.kNat ≤ 256) {m : Memory} {p : Nat} {x : Byte}
    (hx : x.toNat < c.kNat) (hbits : ∀ j, j < bpp c.kNat → streamBit c m (p * bpp c.kNat + j) = x.getLsbD j) :
    unpackIndexAt c m p = x := by
  refine BitVec.eq_of_getLsbD_eq fun j _ => ?_
  rw [getLsbD_unpackIndexAt hk]
  by_cases hj : j < bpp c.kNat
  · rw [decide_eq_true hj, Bool.true_and, hbits j hj]
  · have hzero : x.toNat < 2 ^ j :=
      lt_of_lt_of_le hx ((le_two_pow_bpp _).trans (Nat.pow_le_pow_right two_pos (Nat.not_lt.1 hj)))
    rw [decide_eq_false hj, Bool.false_and, ← BitVec.testBit_toNat, Nat.testBit_lt_two_pow hzero]

/-- An UNPACK that finds no bad index completes with OK, writes what it decodes and nothing outside IDX (rule R160). -/
theorem exec_unpack_ok {s : State} (hwf : UnpackWellFormed s.operands s.params.memBytes)
    (hidx : ∀ p, p < s.operands.npix → (unpackIndexAt s.operands s.mem p).toNat < s.operands.kNat) :
    ∃ t, exec .unpack s = .next t ∧ t.err = .ok
      ∧ (∀ p, p < s.operands.npix →
          t.mem.readByte (s.operands.idxBase.toNat + p) = unpackIndexAt s.operands s.mem p)
      ∧ OnlyWithin s.mem t.mem s.operands.idxBase.toNat s.operands.npix := by
  have hexec := exec_eq .unpack s
  rw [show commandResult .unpack s = _ from unpackResult_of_ok hwf (firstBadIndex_eq_none.2 hidx)] at hexec
  refine ⟨_, hexec, rfl, fun p hp => ?_, ?_⟩
  · rw [complete_mem, readByte_writeBytes_inside (by simpa using hp), List.getElem_map, List.getElem_range]
  · simpa using onlyWithin_writeBytes s.mem s.operands.idxBase.toNat
      ((List.range s.operands.npix).map (unpackIndexAt s.operands s.mem))

theorem high_append_low (v : Half) : v.extractLsb' 8 8 ++ v.extractLsb' 0 8 = v := by
  rw [BitVec.extractLsb'_append_extractLsb'_eq_extractLsb' (show 8 = 0 + 8 from rfl), BitVec.extractLsb'_eq_self]

theorem unpackIndexAt_congr {c c' : ConfigRegs} (hbase : c'.outBase = c.outBase) (hk : c'.kNat = c.kNat) (m : Memory)
    (p : Nat) : unpackIndexAt c' m p = unpackIndexAt c m p := by
  rw [unpackIndexAt, hbase, hk, unpackIndexAt]

/-- PACK's checks cover UNPACK's on the packed buffer; what is left to check is the index array (rule R150). -/
theorem unpackWellFormed_of_packWellFormed {pal : SurfNum} {c c' : ConfigRegs} {n : Nat} (h : PackWellFormed pal c n)
    (hk : c'.kNat = c.kNat) (hnpix : c'.npix = c.npix) (hbase : c'.outBase = c.outBase)
    (hsize : c'.outSize = c.outSize) (hdisjoint : ¬ Overlap c'.outBase.toNat c'.outSize.toNat c'.idxBase.toNat c'.npix)
    (hidx : InBounds c'.idxBase.toNat c'.npix n) : UnpackWellFormed c' n := by
  obtain ⟨hrange, -, -, -, hout, -, -, -, hsized⟩ := h
  refine ⟨hk ▸ hrange, hdisjoint, ?_, hidx, ?_⟩
  · rw [hbase, hsize]
    exact hout
  · rw [hsize, hk, hnpix, hsized]

/-- Settles O24: the packed image holds every index's bits, so UNPACK decodes the very bytes PACK read; and its writes
stay in an index array that the packed buffer does not meet. -/
theorem packThenUnpackRestoresTheIndices : Obligations.PackThenUnpackRestoresTheIndices := by
  intro pal s t u hexec hok hmem hparams hk hwidth hheight hbase hsize hdisjoint hbounds
  have hkNat : u.operands.kNat = s.operands.kNat := by rw [ConfigRegs.kNat, hk, ConfigRegs.kNat]
  have hnpix : u.operands.npix = s.operands.npix := by rw [ConfigRegs.npix, hwidth, hheight, ConfigRegs.npix]
  rw [exec_next_iff] at hexec
  obtain ⟨hwf, hidx⟩ := (packResult_err_eq_ok_iff pal s).1 (by rw [← hok, hexec]; rfl)
  obtain ⟨t', hexec', hpalette, hstream, -, hpacked, -⟩ := packWritesThePackedImage pal s hwf hidx
  obtain rfl : t = t' := hexec.trans (exec_next_iff.1 hexec').symm
  have hdecoded : ∀ p, p < u.operands.npix →
      unpackIndexAt u.operands u.mem p = s.mem.readByte (s.operands.idxBase.toNat + p) := by
    intro p hp
    rw [hnpix] at hp
    rw [unpackIndexAt_congr hbase hkNat, hmem]
    exact unpackIndexAt_eq hwf.1.2 (hidx p hp) fun j hj => hstream p j hp hj
  obtain ⟨v, hexecv, hokv, hwritten, honly⟩ := exec_unpack_ok
    (unpackWellFormed_of_packWellFormed (hparams ▸ hwf) hkNat hnpix hbase hsize hdisjoint hbounds) fun p hp => by
      rw [hdecoded p hp, hkNat]
      exact hidx p (hnpix ▸ hp)
  have hkeep : ∀ x, s.operands.outBase.toNat ≤ x → x < s.operands.outBase.toNat + 2 * s.operands.kNat →
      v.mem.readByte x = t.mem.readByte x := by
    intro x hx hx'
    rw [← hmem]
    refine honly x fun hin => hdisjoint ?_
    rw [hbase, hsize, hpacked, Overlap]
    omega
  refine ⟨v, hexecv, hokv, ?indices, ?palette⟩
  case indices =>
    intro p hp
    rw [← hnpix] at hp
    rw [hwritten p hp, hdecoded p hp]
  case palette =>
    intro i hi o a
    obtain ⟨hlow, hhigh⟩ := hpalette i hi
    rw [hkeep (o + 1) (by omega) (by omega), hkeep o (by omega) (by omega), hhigh, hlow, high_append_low]

end Sys2Proof.Machine
end

section
/-! PROOFS. What a completion leaves in ERR_INFO, and the interrupt output (60_exceptions.md rules R183, R190 and R191). -/

namespace Sys2Proof.Machine

/-! ### The interrupt output -/

/-- A completion sets DONE, so DONE_IE alone decides IRQ after it (rules R190, R191). -/
@[simp] theorem complete_irq (r : Result) (s : State) : (s.complete r).irq = s.doneIe := Bool.true_and _

/-- A write to IRQ_EN masks or unmasks IRQ at once and leaves DONE (rules R26, R191). -/
theorem writeReg_irqEn (v : Word) (s : State) : s.writeReg .irqEn v = { s with doneIe := v.getLsbD 0 } := rfl

/-- Settles O46: IRQ is defined by rule R190; commands and illegal words share one completion, which sets DONE; and each
of the host's writes is one operation, whose effect on DONE and DONE_IE is known. -/
theorem irqIsDoneAndEnabled : Obligations.IrqIsDoneAndEnabled := by
  refine ⟨fun s => rfl, ?command, ?illegal, ?status, ?irqEn, ?cmd⟩
  case command => exact fun i s => ⟨_, exec_eq i s, complete_done .., complete_irq ..⟩
  case illegal => exact fun s => ⟨_, rfl, complete_done .., complete_irq ..⟩
  case status => exact fun s v hack => acknowledge_irq hack s
  case irqEn =>
    intro s v
    rw [writeReg_irqEn]
    exact ⟨rfl, rfl⟩
  case cmd =>
    intro s v hidle
    rw [writeReg_cmd_of_idle hidle, startCommand_irq]

/-! ### ERR_INFO -/

/-- Only a result with INDEX_OUT_OF_RANGE writes ERR_INFO (rule R183). -/
theorem commandResult_info_of_err_ne {i : Instr} {s : State} (h : (commandResult i s).err ≠ .indexOutOfRange) :
    (commandResult i s).info = none := by
  rcases commandResult_cases i s with ⟨e, -, -, hfail⟩ | ⟨p, hindex, -⟩ | ⟨-, hinfo, -⟩
  · rw [hfail]; rfl
  · rw [hindex] at h; exact absurd rfl h
  · exact hinfo

/-- A pixel position fits ERR_INFO's 32 bits, since the width and the height have 16 bits each (rules R24, R183). -/
theorem npix_lt (c : ConfigRegs) : c.npix < 2 ^ 32 :=
  calc c.npix < 2 ^ 16 * 2 ^ 16 := Nat.mul_lt_mul'' c.width.isLt c.height.isLt
    _ = 2 ^ 32 := by norm_num

/-- What a result writes to ERR_INFO when it is INDEX_OUT_OF_RANGE only where the search finds a bad index, and then at
the pixel found. -/
theorem leastBadPixel_of_firstBadIndex {r : Result} {c : ConfigRegs} {index : Nat → Byte} {draws : Nat} {e : Extent}
    (hbad : ∀ p, firstBadIndex c.kNat c.npix index = some p → r = indexError p draws e)
    (hok : firstBadIndex c.kNat c.npix index = none → r.err = .ok) (herr : r.err = .indexOutOfRange) (old : Word) :
    LeastBadPixel c (fun q => (index q).toNat) (r.info.getD old).toNat := by
  cases hsearch : firstBadIndex c.kNat c.npix index with
  | some p =>
    obtain ⟨hk, hp, hleast⟩ := firstBadIndex_eq_some.1 hsearch
    have hinfo : (r.info.getD old).toNat = p := by
      rw [hbad p hsearch]
      exact Nat.mod_eq_of_lt (hp.trans (npix_lt c))
    rw [hinfo]
    exact ⟨hp, hk, hleast⟩
  | none => exact absurd ((hok hsearch).symm.trans herr) nofun

/-- PACK searches the index array only on registers that pass checks 1 to 6 (rule R150). -/
theorem packWellFormed_of_indexOutOfRange {pal : SurfNum} {s : State}
    (herr : (packResult pal s).err = .indexOutOfRange) : PackWellFormed pal s.operands s.params.memBytes := by
  cases hcheck : packError pal s.operands s.params.memBytes with
  | some e =>
    rw [packResult_of_error hcheck] at herr
    exact absurd herr (fail_err_ne_of_firstError hcheck (by simp))
  | none => exact (packError_eq_none_iff ..).1 hcheck

/-- UNPACK decodes indices only on registers that pass its checks (rules R150, R160). -/
theorem unpackWellFormed_of_indexOutOfRange {s : State} (herr : (unpackResult s).err = .indexOutOfRange) :
    UnpackWellFormed s.operands s.params.memBytes := by
  cases hcheck : unpackError s.operands s.params.memBytes with
  | some e =>
    rw [unpackResult_of_error hcheck] at herr
    exact absurd herr (fail_err_ne_of_firstError hcheck (by simp))
  | none => exact (unpackError_eq_none_iff ..).1 hcheck

/-- Settles O22: the start clears ERR_INFO, a completion writes it only from an INDEX_OUT_OF_RANGE result, and that result
holds the pixel at which the search for a bad index stops. -/
theorem errInfoIsTheLeastBadPixel : Obligations.ErrInfoIsTheLeastBadPixel := by
  refine ⟨?start, ?command, fun s => ⟨_, rfl, rfl⟩, ?pack, ?unpack⟩
  case start =>
    intro s v rest hidle hs
    refine ⟨_, step_hostWr hs, ?_⟩
    rw [writeReg_cmd_of_idle (s := { s with schedule := rest }) hidle, startCommand_errInfo]
  case command =>
    refine fun i s => ⟨_, exec_eq i s, fun herr => ?_⟩
    rw [complete_errInfo, commandResult_info_of_err_ne herr, Option.getD_none]
  case pack =>
    intro pal s t hexec herr
    obtain rfl := exec_next_iff.1 hexec
    have hwf := packWellFormed_of_indexOutOfRange herr
    exact leastBadPixel_of_firstBadIndex (fun p hp => packResult_of_badIndex hwf hp)
      (fun hp => congrArg Result.err (packResult_of_ok hwf hp)) herr s.errInfo
  case unpack =>
    intro s t hexec herr
    obtain rfl := exec_next_iff.1 hexec
    have hwf := unpackWellFormed_of_indexOutOfRange herr
    obtain ⟨-, hk⟩ := hwf.1
    have hdecoded : streamIndex s.operands s.mem = fun p => (unpackIndexAt s.operands s.mem p).toNat :=
      funext fun p => (toNat_unpackIndexAt hk s.mem p).symm
    rw [hdecoded]
    exact leastBadPixel_of_firstBadIndex (fun p hp => unpackResult_of_badIndex hwf hp)
      (fun hp => congrArg Result.err (unpackResult_of_ok hwf hp)) herr s.errInfo

end Sys2Proof.Machine
end

section
/-! PROOFS. The reset input (70_reset_and_hazards.md rule R210): what the host reads in the reset state and after reset is
asserted, and the engine under reset. -/

namespace Sys2Proof.Machine

/-! ### The reset values -/

/-- All four surface descriptors have the same reset value (rule R24). -/
theorem reset_surf (i : SurfNum) : State.reset.regs.surf i = .reset := by
  revert i
  decide

/-- Every register's reset value is 0 (rule R24); of the surfaces' registers, tag 0 is COLOR (rule R13). -/
theorem reset_readReg (reg : Reg) : State.reset.readReg reg = 0 := by
  cases reg with
  | surfBase i => exact congrArg Surface.base (reset_surf i)
  | surfCount i => exact congrArg Surface.count (reset_surf i)
  | surfTag i => exact congrArg (fun d : Surface => d.tag.bit.setWidth 32) (reset_surf i)
  | _ => rfl

/-! ### Asserting reset -/

@[simp] theorem assertReset_regs (s : State) : s.assertReset.regs = State.reset.regs :=
  (congrArg State.regs (assertReset_frame s) :)

/-- After reset is asserted the host reads what it reads in the reset state. -/
theorem assertReset_readReg (s : State) (reg : Reg) : s.assertReset.readReg reg = State.reset.readReg reg := by
  rw [assertReset_frame]
  cases reg <;> rfl

@[simp] theorem assertReset_irq (s : State) : s.assertReset.irq = false :=
  (congrArg State.irq (assertReset_frame s) :)

@[simp] theorem assertReset_resetAsserted (s : State) : s.assertReset.resetAsserted = true := rfl

@[simp] theorem assertReset_schedule (s : State) : s.assertReset.schedule = s.schedule :=
  (congrArg State.schedule (assertReset_frame s) :)

/-- The host's assertion of the reset input, as a step. -/
theorem step_assertReset {s : State} {rest : List Event} (h : s.schedule = .host (.resetLine true) :: rest) :
    step s = .next ({ s with schedule := rest } : State).assertReset := step_host h

/-- Settles O47: what the host sees after the assertion is what it sees in the reset state, where every register has its
reset value 0; and under reset the engine's move is the idle one. -/
theorem resetPutsEveryRegisterAtZero : Obligations.ResetPutsEveryRegisterAtZero := by
  refine ⟨fun s rest hs => ?assertion, fun s hreset hnext => ?engine⟩
  case assertion =>
    have hread (reg : Reg) : ({ s with schedule := rest } : State).assertReset.readReg reg = 0 := by
      rw [assertReset_readReg, reset_readReg]
    have htag (i : SurfNum) : (({ s with schedule := rest } : State).assertReset.regs.surf i).tag = .color := by
      rw [assertReset_regs, reset_surf]
      rfl
    exact ⟨_, step_assertReset hs, hread, htag, hread .status, assertReset_irq _, assertReset_pending _,
      assertReset_race _, assertReset_resetAsserted _, assertReset_schedule _⟩
  case engine =>
    rw [step_engineNext hnext, engineMove_reset (s := { s with schedule := s.schedule.tail }) hreset]

end Sys2Proof.Machine
end

section
/-! PROOFS. Encoding and decoding against each other, and the assembler's words (30_encoding.md rules R81 to R86). -/

namespace Sys2Proof.Machine

/-! ### Fields -/

theorem fieldsOf_encode (i : Instr) : fieldsOf (encode i) = i.fields := by
  cases i with
  | cscFwd src dst range => exact (Laws.Fields.cscFwd src dst range).1
  | cscInv src dst range => exact (Laws.Fields.cscInv src dst range).1
  | pack pal => exact (Laws.Fields.pack pal).1
  | unpack => exact Laws.Fields.unpack.1

theorem instr_wellFormed (i : Instr) : i.wellFormed = true := by
  cases i with
  | cscFwd src dst range => exact (Laws.Fields.cscFwd src dst range).2
  | cscInv src dst range => exact (Laws.Fields.cscInv src dst range).2
  | pack pal => exact (Laws.Fields.pack pal).2
  | unpack => exact Laws.Fields.unpack.2

/-- The five fields of rule R81 cover every bit of the word. -/
theorem fieldsOf_injective {v w : Word} (h : fieldsOf v = fieldsOf w) : v = w := by
  obtain ⟨hop, hs, hd, hr, hrsv⟩ := CmdFields.mk.inj h
  have hv : v.toNat < 4294967296 := v.isLt
  have hw : w.toNat < 4294967296 := w.isLt
  have hbit : v.toNat / 256 % 2 = 1 ↔ w.toNat / 256 % 2 = 1 :=
    decide_eq_decide.1 ((fieldsOf_r v).symm.trans (hr.trans (fieldsOf_r w)))
  simp only [← BitVec.toNat_inj, BitVec.extractLsb'_toNat, Nat.shiftRight_eq_div_pow] at hop hs hd hrsv
  exact BitVec.eq_of_toNat_eq (by omega)

/-! ### Decoding of fields -/

theorem surfNum_ofFin (i : SurfNum) : surfNum (BitVec.ofFin i) = i := rfl

theorem ofFin_surfNum (b : BitVec 2) : BitVec.ofFin (surfNum b) = b := rfl

/-- Rule R84's decoding on fields finds a command exactly in the fields that the command is written with. -/
theorem decodeFields_eq_some_iff (f : CmdFields) (i : Instr) : decodeFields f = some i ↔ f = i.fields := by
  constructor
  · intro h
    obtain ⟨op, s, d, r, rsv⟩ := f
    simp only [decodeFields] at h
    split_ifs at h with hrsv hfwd hinv hpack hunpack <;> cases h
    · simp_all [Instr.fields, ofFin_surfNum]
    · simp_all [Instr.fields, ofFin_surfNum]
    · obtain ⟨hop, hd, hr⟩ := hpack
      simp_all [Instr.fields, ofFin_surfNum]
    · obtain ⟨hop, hs, hd, hr⟩ := hunpack
      simp_all [Instr.fields]
  · rintro rfl
    cases i <;> simp [decodeFields, Instr.fields, surfNum_ofFin]

theorem decode_eq_some_iff (w : Word) (i : Instr) : decode w = some i ↔ w = encode i := by
  rw [decode, decodeFields_eq_some_iff, ← fieldsOf_encode]
  exact ⟨fieldsOf_injective, congrArg fieldsOf⟩

theorem decode_encode (i : Instr) : decode (encode i) = some i := (decode_eq_some_iff _ i).2 rfl

/-- Settles O2: both directions are `decode_eq_some_iff`, which rests on the fields covering the word and on each
command being decoded from its own fields only. -/
theorem decodeInvertsEncode : Obligations.DecodeInvertsEncode :=
  ⟨fun i => ⟨instr_wellFormed i, decode_encode i⟩, fun w i h => ((decode_eq_some_iff w i).1 h).symm⟩

/-! ### The assembler and the spec's own words -/

theorem asm_word_eq_encode (a : Asm) : a.word = encode a.instr := by
  cases a with
  | cscFwd dst src | cscFwdR dst src | cscInv dst src | cscInvR dst src => revert dst src; decide
  | pack n | cscFwdInPlace n | cscInvInPlace n => revert n; decide
  | unpack => decide

/-- Settles O5: each sum of rule R86's table is the encoding of the form's command, so it decodes to it. -/
theorem assemblerFormsEncodeTheirCommands : Obligations.AssemblerFormsEncodeTheirCommands := fun a =>
  ⟨asm_word_eq_encode a, (decode_eq_some_iff ..).2 (asm_word_eq_encode a)⟩

/-- Settles O1: six of the words are encodings of their commands, the other two are illegal in numbers. -/
theorem sampleCommandWordsDecode : Obligations.SampleCommandWordsDecode := by
  unfold Obligations.SampleCommandWordsDecode
  simp only [decode_eq_some_iff, decode_eq_none_iff, IllegalWord]
  decide

end Sys2Proof.Machine
end

section
/-! PROOFS. What a step can do, and what every step keeps: the machine's invariant, its parameters, a pending command,
and the reasons for which a step is refused (60_exceptions.md rules R183 to R188, 70_reset_and_hazards.md rule R210).
-/

namespace Sys2Proof.Machine

/-! ### A step that goes on -/

/-- A step that goes on is the engine staying idle, the engine completing the pending command, or a host move. -/
theorem step_next_cases {s t : State} (h : step s = .next t) :
    (s.EngineNext ∧ t = { s with schedule := s.schedule.tail })
    ∨ (∃ p, s.EngineNext ∧ s.resetAsserted = false ∧ s.pending = some p
        ∧ t = ({ s with schedule := s.schedule.tail } : State).complete
            (pendingResult p { s with schedule := s.schedule.tail }))
    ∨ (∃ op rest, s.schedule = .host op :: rest ∧ hostMove op { s with schedule := rest } = .next t) := by
  rcases step_cases s with ⟨hn, hstep⟩ | ⟨op, rest, hs, hstep⟩
  · rcases engineMove_cases { s with schedule := s.schedule.tail } with ⟨hmove, -⟩ | ⟨p, hr, hp, hmove⟩
    · exact .inl ⟨hn, Host.Outcome.next.inj (h.symm.trans (hstep.trans hmove))⟩
    · exact .inr (.inl ⟨p, hn, hr, hp, Host.Outcome.next.inj (h.symm.trans (hstep.trans hmove))⟩)
  · refine .inr (.inr ⟨op, rest, hs, ?_⟩)
    rw [← h, step_host hs]

/-- What every move keeps, every step keeps. -/
theorem step_keeps {P : State → Prop} (hschedule : ∀ s es, P s → P { s with schedule := es })
    (hcomplete : ∀ s p, s.pending = some p → P s → P (s.complete (pendingResult p s)))
    (hhost : ∀ op s t, hostMove op s = .next t → P s → P t) {s t : State} (h : step s = .next t) (hs : P s) : P t := by
  rcases step_next_cases h with ⟨-, rfl⟩ | ⟨p, -, -, hp, rfl⟩ | ⟨op, rest, -, hmove⟩
  · exact hschedule s _ hs
  · exact hcomplete _ p hp (hschedule s _ hs)
  · exact hhost op _ t hmove (hschedule s rest hs)

/-! ### The pending command's result -/

theorem pendingResult_of_some {p : Pending} {i : Instr} (h : decode p.word = some i) (s : State) :
    pendingResult p s = commandResult i s := by
  simp only [pendingResult, h]

/-- The completion of the pending command writes nothing, or writes inside the buffer memory. -/
theorem pendingResult_inside (p : Pending) (s : State) :
    (pendingResult p s).bytes = []
      ∨ (pendingResult p s).base + (pendingResult p s).bytes.length ≤ s.params.memBytes := by
  cases hd : decode p.word with
  | some i => rw [pendingResult_of_some hd]; exact commandResult_inside i s
  | none => rw [pendingResult_of_none hd]; exact .inl rfl

/-- Only INDEX_OUT_OF_RANGE writes ERR_INFO (rule R183). -/
theorem pendingResult_info_of_err_ne {p : Pending} {s : State} (h : (pendingResult p s).err ≠ .indexOutOfRange) :
    (pendingResult p s).info = none := by
  cases hd : decode p.word with
  | some i =>
    rw [pendingResult_of_some hd] at h ⊢
    exact commandResult_info_of_err_ne h
  | none => rw [pendingResult_of_none hd]; rfl

/-! ### The invariant -/

theorem inv_schedule {s : State} (h : s.Inv) (es : List Event) : ({ s with schedule := es } : State).Inv := { h with }

theorem busy_of_pending {s : State} {p : Pending} (h : s.pending = some p) : s.busy = true := by
  simp [State.busy, h]

theorem pending_of_idle {s : State} (h : s.busy = false) : s.pending = none := by
  simpa [State.busy] using h

theorem inv_complete {s : State} {p : Pending} (hp : s.pending = some p) (h : s.Inv) :
    (s.complete (pendingResult p s)).Inv where
  memRising := wf_writeBytes h.memRising ..
  memInside := inside_writeBytes h.memInside _ _ (pendingResult_inside p s)
  paramsLegal := h.paramsLegal
  snapshotLive := nofun
  startCleared := nofun
  infoOnIndex herr := by
    obtain ⟨-, -, hinfo⟩ := h.startCleared (busy_of_pending hp)
    rw [complete_errInfo, pendingResult_info_of_err_ne herr, Option.getD_none, hinfo]

theorem inv_startCommand {s : State} (h : s.Inv) (v : Word) : (s.startCommand v).Inv where
  memRising := h.memRising
  memInside := h.memInside
  paramsLegal := h.paramsLegal
  snapshotLive := by rintro p ⟨⟩; exact ⟨rfl, rfl⟩
  startCleared _ := ⟨rfl, rfl, rfl⟩
  infoOnIndex _ := rfl

theorem inv_writeReg {s : State} (h : s.Inv) (reg : Reg) (v : Word) : (s.writeReg reg v).Inv := by
  rcases writeReg_cases reg v s with hw | ⟨-, hw⟩ | ⟨-, hw⟩ | ⟨-, hw⟩ | ⟨-, -, hw⟩ | ⟨hidle, hw⟩ <;> rw [hw]
  case inr.inl =>
    exact { h with
      startCleared := fun hbusy => by
        obtain ⟨hdone, hrest⟩ := h.startCleared hbusy
        exact ⟨by rw [acknowledge_done, hdone, Bool.false_and], hrest⟩ }
  case inr.inr.inr.inr.inl => exact inv_startCommand h v
  case inr.inr.inr.inr.inr =>
    exact { h with snapshotLive := fun p hp => absurd ((pending_of_idle hidle).symm.trans hp) nofun }
  all_goals exact { h with }

theorem inv_hostWrite {s : State} (h : s.Inv) {a width : Nat} (ha : a + width ≤ s.params.memBytes) (v : Word) :
    (s.hostWrite a width v).Inv := by
  rw [hostWrite_frame]
  exact { h with memRising := hostWrite_wf h.memRising .., memInside := hostWrite_inside h.memInside ha v }

theorem inv_assertReset {s : State} (h : s.Inv) : s.assertReset.Inv := by
  rw [assertReset_frame]
  exact {
    memRising := wf_scrambleAll h.memRising _
    memInside := inside_scrambleAll h.memInside _
    paramsLegal := h.paramsLegal
    snapshotLive := nofun
    startCleared := nofun
    infoOnIndex := fun _ => rfl }

theorem inv_hostMove {op : HostOp} {s t : State} (hmove : hostMove op s = .next t) (h : s.Inv) : t.Inv := by
  rcases hostMove_cases hmove with ⟨off, width, v, -, -, rfl⟩ | ⟨off, width, -, -, rfl⟩
    | ⟨a, width, v, -, -, ha, rfl⟩ | ⟨a, width, -, -, -, rfl⟩ | ⟨-, rfl⟩ | ⟨-, rfl⟩
  · exact inv_writeReg h _ v
  · exact { h with }
  · exact inv_hostWrite h ha v
  · exact { h with }
  · exact inv_assertReset h
  · exact { h with }

/-- Settles O51: each of the moves a step can be keeps the invariant. -/
theorem everyStepKeepsTheInvariant : Obligations.EveryStepKeepsTheInvariant := fun _ _ h hstep =>
  step_keeps (P := State.Inv) (fun _ es hs => inv_schedule hs es) (fun _ _ hp hs => inv_complete hp hs)
    (fun _ _ _ hmove hs => inv_hostMove hmove hs) hstep h

/-- Settles O50: nothing is written or pending in the reset state, and its MEM_BYTES is the default. -/
theorem resetStateMeetsTheInvariant : Obligations.ResetStateMeetsTheInvariant where
  memRising := List.Pairwise.nil
  memInside := nofun
  paramsLegal := by decide
  snapshotLive := nofun
  startCleared := nofun
  infoOnIndex _ := rfl

/-! ### The parameters -/

theorem writeReg_params (reg : Reg) (v : Word) (s : State) : (s.writeReg reg v).params = s.params := by
  rcases writeReg_cases reg v s with h | ⟨-, h⟩ | ⟨-, h⟩ | ⟨-, h⟩ | ⟨-, -, h⟩ | ⟨-, h⟩ <;> rw [h] <;> rfl

theorem hostMove_params {op : HostOp} {s t : State} (h : hostMove op s = .next t) : t.params = s.params := by
  rcases hostMove_cases h with ⟨off, width, v, -, -, rfl⟩ | ⟨off, width, -, -, rfl⟩
    | ⟨a, width, v, -, -, -, rfl⟩ | ⟨a, width, -, -, -, rfl⟩ | ⟨-, rfl⟩ | ⟨-, rfl⟩
  case inl => exact writeReg_params _ v s
  case inr.inr.inl => exact (congrArg State.params (hostWrite_frame a width v s) :)
  case inr.inr.inr.inr.inl => exact (congrArg State.params (assertReset_frame s) :)
  all_goals rfl

/-- Settles O52: no completion and no host move has a parameter among the fields it writes. -/
theorem noStepChangesTheParameters : Obligations.NoStepChangesTheParameters := fun s _ h =>
  step_keeps (P := fun u => u.params = s.params) (fun _ _ hu => hu) (fun _ _ _ hu => hu)
    (fun _ _ _ hmove hu => (hostMove_params hmove).trans hu) h rfl

end Sys2Proof.Machine
end

section
/-! PROOFS. The life of a command: its start, its completion or its drop by reset, and the steps that are refused
(60_exceptions.md rules R186 to R188, 70_reset_and_hazards.md rules R210 and R230). -/

namespace Sys2Proof.Machine

/-! ### The engine's step -/

/-- Settles O26: the completion of the pending result is `exec` of the decoded command. -/
theorem stepRunsTheDecodedCommand : Obligations.StepRunsTheDecodedCommand := by
  have key : ∀ (s : State) (p : Pending) (i : Instr), s.pending = some p → s.resetAsserted = false → s.EngineNext →
      decode p.word = some i → step s = exec i { s with schedule := s.schedule.tail } := by
    intro s p i hp hr hn hd
    rw [step_completes hp hr hn, pendingResult_of_some hd, exec_eq]
  refine ⟨key, fun s nbits w i hw => ?_⟩
  have hdecode : decode (BitVec.ofNat 32 w) = some i := by
    rw [decodeTableWord] at hw
    split at hw
    · exact hw
    · exact absurd hw nofun
  exact key (s.withFetchWord nbits w) ⟨BitVec.ofNat 32 w, s.regs⟩ i rfl rfl (.inr ⟨s.schedule, rfl⟩) hdecode

theorem exists_pending_of_busy {s : State} (h : s.busy = true) : ∃ p, s.pending = some p :=
  Option.isSome_iff_exists.1 h

/-- Settles O27: `engineMove` either completes the pending command or stays idle. -/
theorem completionFiresExactlyWhenEnabled : Obligations.CompletionFiresExactlyWhenEnabled := by
  intro s hn
  constructor
  · intro hbusy hr
    obtain ⟨p, hp⟩ := exists_pending_of_busy hbusy
    exact ⟨_, step_completes hp hr hn, complete_busy .., completionFrame_complete ..⟩
  · rintro (hidle | hr)
    · rw [step_engineNext hn, engineMove_idle (s := { s with schedule := s.schedule.tail }) (pending_of_idle hidle)]
    · rw [step_engineNext hn, engineMove_reset (s := { s with schedule := s.schedule.tail }) hr]

/-! ### What ends a command -/

/-- A register write leaves a pending command pending (rules R26, R34). -/
theorem writeReg_keeps_pending {s : State} {p : Pending} (hp : s.pending = some p) (reg : Reg) (v : Word) :
    (s.writeReg reg v).pending = some p := by
  have hbusy := busy_of_pending hp
  rcases writeReg_cases reg v s with h | ⟨-, h⟩ | ⟨-, h⟩ | ⟨-, h⟩ | ⟨-, hidle, h⟩ | ⟨-, h⟩ <;> rw [h]
  case inr.inr.inr.inr.inl => exact absurd (hbusy.symm.trans hidle) nofun
  all_goals exact hp

/-- Of the host's moves only the assertion of reset ends a command (rules R187, R210). -/
theorem hostMove_keeps_pending {op : HostOp} {s t : State} {p : Pending} (h : hostMove op s = .next t)
    (hp : s.pending = some p) : t.pending = some p ∨ op = .resetLine true := by
  rcases hostMove_cases h with ⟨off, width, v, -, -, rfl⟩ | ⟨off, width, -, -, rfl⟩
    | ⟨a, width, v, -, -, -, rfl⟩ | ⟨a, width, -, -, -, rfl⟩ | ⟨hop, -⟩ | ⟨-, rfl⟩
  case inr.inr.inr.inr.inl => exact .inr hop
  · exact .inl (writeReg_keeps_pending hp _ v)
  · exact .inl hp
  · exact .inl ((hostWrite_pending ..).trans hp)
  · exact .inl hp
  · exact .inl hp

/-- Settles O30: a step is an idle engine's, a completion, or a host move, of which only the assertion of reset drops
the command. -/
theorem onlyCompletionOrResetEndsACommand : Obligations.OnlyCompletionOrResetEndsACommand := by
  refine ⟨fun s t p hp h => ?_, fun s p hp hr hn => ⟨_, step_completes hp hr hn, rfl, rfl⟩⟩
  rcases step_next_cases h with ⟨-, rfl⟩ | ⟨p', hn, -, -, rfl⟩ | ⟨op, rest, hs, hmove⟩
  · exact .inl hp
  · exact .inr (.inl ⟨rfl, rfl, hn⟩)
  · rcases hostMove_keeps_pending hmove hp with hkept | rfl
    · exact .inl hkept
    · obtain rfl := Host.Outcome.next.inj hmove
      exact .inr (.inr ⟨assertReset_pending _, rest, hs⟩)

/-- Settles O56: the release only clears the level, and in the released state the engine's next move is the
completion. -/
theorem releasingResetEnablesTheCompletion : Obligations.ReleasingResetEnablesTheCompletion := by
  refine ⟨fun s rest hs => step_release hs, fun s p rest hp hs => ?_⟩
  have hcomplete := step_completes (s := { s with resetAsserted := false, schedule := .engine :: rest }) hp rfl
    (.inr ⟨rest, rfl⟩)
  refine ⟨_, _, step_release hs, hp, hcomplete, rfl, rfl, fun i hd => ?_⟩
  rw [pendingResult_of_some hd, exec_eq]
  rfl

/-! ### Running a command -/

/-- A command's result does not depend on the moves still to come or on what the host has read. -/
theorem commandResult_congr_model (i : Instr) (s : State) (es : List Event) (x : Option Word) :
    commandResult i { s with schedule := es, readData := x } = commandResult i s := by
  cases i <;> rfl

/-- The host's `wait` on a pending command: the polls, then the completion, then the STATUS read that shows it (rules
R87, R187). -/
theorem run_hostWait {i : Instr} {p : Pending} (hd : decode p.word = some i) (polls : Nat) :
    ∀ s : State, s.pending = some p → s.resetAsserted = false → s.schedule = hostWait polls →
      Sys2Proof.core.run (polls + 2) s =
        .next { s.complete (commandResult i s) with
          schedule := [], readData := some (s.complete (commandResult i s)).statusWord } := by
  induction polls with
  | zero =>
    intro s hp hr hs
    have hcomplete := step_completes hp hr (.inr ⟨_, hs⟩)
    rw [pendingResult_of_some hd] at hcomplete
    have hread := step_hostRd (s := ({ s with schedule := s.schedule.tail } : State).complete
      (commandResult i { s with schedule := s.schedule.tail })) (reg := .status) (rest := []) (by rw [hs]; rfl)
    rw [core_run_succ hcomplete, core_run_succ hread, core_run_zero,
      show commandResult i { s with schedule := s.schedule.tail } = commandResult i s from
        commandResult_congr_model i s s.schedule.tail s.readData]
    rfl
  | succ polls ih =>
    intro s hp hr hs
    have hread := step_hostRd (s := s) (reg := .status) (rest := hostWait polls) hs
    have hrest := ih { s with schedule := hostWait polls, readData := some (s.readReg .status) } hp hr rfl
    rw [commandResult_congr_model] at hrest
    exact (core_run_succ hread (polls + 2)).trans hrest

/-- Settles O31: the CMD write starts the command and `run_hostWait` completes it; the start and the polls change
nothing that the command reads. -/
theorem runningACommandDoesNotDependOnItsLatency : Obligations.RunningACommandDoesNotDependOnItsLatency := by
  intro i polls s hidle hr hs
  refine ⟨_, exec_eq i _, ?_, statusWord_busy _⟩
  have hstart : step s = .next (({ s with schedule := hostWait polls } : State).startCommand (encode i)) := by
    rw [step_hostWr hs, writeReg_cmd_of_idle (s := { s with schedule := hostWait polls }) hidle]
  have hrest := run_hostWait (p := ⟨encode i, s.regs⟩) (decode_encode i) polls
    (({ s with schedule := hostWait polls } : State).startCommand (encode i)) (startCommand_pending ..) hr rfl
  rw [show commandResult i (({ s with schedule := hostWait polls } : State).startCommand (encode i))
      = commandResult i (s.startCommand (encode i)) from
    commandResult_congr_model i (s.startCommand (encode i)) (hostWait polls) s.readData] at hrest
  exact (core_run_succ hstart (polls + 2)).trans hrest

/-! ### Refused steps -/

theorem bufferWidthOk_iff (width : Nat) : bufferWidthOk width = true ↔ width = 1 ∨ width = 2 ∨ width = 4 := by
  simp [bufferWidthOk, or_assoc]

section
variable {a width : Nat} {s : State}

theorem hostMove_memWrite_badWidth (h : ¬ bufferWidthOk width = true) {v : Word} :
    hostMove (.memWrite a width v) s = .refused .bufferWidth := by simp [hostMove, h]

theorem hostMove_memRead_badWidth (h : ¬ bufferWidthOk width = true) :
    hostMove (.memRead a width) s = .refused .bufferWidth := by simp [hostMove, h]

theorem hostMove_memWrite_outside (h : bufferWidthOk width = true) (ha : s.params.memBytes < a + width) {v : Word} :
    hostMove (.memWrite a width v) s = .refused .bufferAddress := by simp [hostMove, h, ha]

theorem hostMove_memRead_outside (h : bufferWidthOk width = true) (ha : s.params.memBytes < a + width) :
    hostMove (.memRead a width) s = .refused .bufferAddress := by simp [hostMove, h, ha]

end

/-- A host move is refused by the check of its own space only: rule R22's on registers, rule R61's on the buffer. -/
theorem hostMove_refused {op : HostOp} {s : State} {r : Refusal} (h : hostMove op s = .refused r) :
    (r = .registerAccess ∧ ∃ off width, ((∃ v, op = .regWrite off width v) ∨ op = .regRead off width)
        ∧ ¬ regAccessOk off width = true)
    ∨ (r = .bufferWidth ∧ ∃ a width, ((∃ v, op = .memWrite a width v) ∨ op = .memRead a width)
        ∧ ¬ bufferWidthOk width = true)
    ∨ (r = .bufferAddress ∧ ∃ a width, ((∃ v, op = .memWrite a width v) ∨ op = .memRead a width)
        ∧ s.params.memBytes < a + width) := by
  cases op with
  | regWrite off width v =>
    by_cases hok : regAccessOk off width = true
    · rw [hostMove_regWrite_ok hok] at h; cases h
    · rw [hostMove_regWrite_refused hok] at h; cases h
      exact .inl ⟨rfl, off, width, .inl ⟨v, rfl⟩, hok⟩
  | regRead off width =>
    by_cases hok : regAccessOk off width = true
    · rw [hostMove_regRead_ok hok] at h; cases h
    · rw [hostMove_regRead_refused hok] at h; cases h
      exact .inl ⟨rfl, off, width, .inr rfl, hok⟩
  | memWrite a width v =>
    by_cases hw : bufferWidthOk width = true
    · by_cases ha : s.params.memBytes < a + width
      · rw [hostMove_memWrite_outside hw ha] at h; cases h
        exact .inr (.inr ⟨rfl, a, width, .inl ⟨v, rfl⟩, ha⟩)
      · rw [hostMove_memWrite_ok hw (Nat.not_lt.1 ha)] at h; cases h
    · rw [hostMove_memWrite_badWidth hw] at h; cases h
      exact .inr (.inl ⟨rfl, a, width, .inl ⟨v, rfl⟩, hw⟩)
  | memRead a width =>
    by_cases hw : bufferWidthOk width = true
    · by_cases ha : s.params.memBytes < a + width
      · rw [hostMove_memRead_outside hw ha] at h; cases h
        exact .inr (.inr ⟨rfl, a, width, .inr rfl, ha⟩)
      · rw [hostMove_memRead_ok hw (Nat.not_lt.1 ha)] at h; cases h
    · rw [hostMove_memRead_badWidth hw] at h; cases h
      exact .inr (.inl ⟨rfl, a, width, .inr rfl, hw⟩)
  | resetLine asserted => cases h

/-- Settles O53: only the host's moves can be refused, each register or buffer access by the check of its own rule. -/
theorem onlyHostAccessesAreRefused : Obligations.OnlyHostAccessesAreRefused := by
  refine fun s => ⟨nofun, fun r h => ?_⟩
  rcases step_cases s with ⟨-, hstep⟩ | ⟨op, rest, hs, hstep⟩
  · rcases engineMove_cases { s with schedule := s.schedule.tail } with ⟨hmove, -⟩ | ⟨p, -, -, hmove⟩
      <;> exact absurd (h.symm.trans (hstep.trans hmove)) nofun
  · refine ⟨op, rest, hs, ?_⟩
    simpa only [regAccessOk_iff, bufferWidthOk_iff] using hostMove_refused (hstep.symm.trans h)

end Sys2Proof.Machine
end

section
/-! PROOFS. The register map as the host reads and writes it (10_state.md rules R22 to R26, 60_exceptions.md rule R180,
70_reset_and_hazards.md rule R210). -/

namespace Sys2Proof.Machine

/-! ### STATUS -/

theorem errCode_lt (e : ErrCode) : e.code.toNat < 7 := by
  cases e <;> decide

theorem statusWord_toNat (s : State) :
    s.statusWord.toNat
      = (if s.busy then 1 else 0) + (if s.done then 2 else 0) + (if s.wbusy then 4 else 0) + 16 * s.err.code.toNat := by
  unfold State.statusWord
  generalize s.busy = busy, s.done = done, s.wbusy = wbusy, s.err = err
  revert busy done wbusy
  cases err <;> decide

/-- Settles O32: the word's number is the sum of its fields at their places, and the codes are below 7. -/
theorem statusWordLayout : Obligations.StatusWordLayout :=
  ⟨fun s => ⟨statusWord_toNat s, errCode_lt s.err⟩, rfl, rfl, rfl, rfl, rfl, rfl, rfl⟩

/-! ### Reading the registers -/

/-- Settles O49: every register's reset value is 0, and a byte nobody has written reads as its power-on draw. -/
theorem resetStateReadsZero : Obligations.ResetStateReadsZero :=
  ⟨reset_readReg, fun i => congrArg Surface.tag (reset_surf i), rfl, rfl, rfl, fun _ => rfl⟩

theorem readReg_irqEn_toNat (s : State) : (s.readReg .irqEn).toNat = if s.doneIe = true then 1 else 0 := by
  rw [State.readReg]
  cases s.doneIe <;> rfl

theorem readReg_k_toNat (s : State) : (s.readReg .k).toNat = s.regs.k.toNat := by
  rw [State.readReg, BitVec.toNat_setWidth_of_le (by norm_num)]

theorem readReg_surfTag_toNat (s : State) (i : SurfNum) :
    (s.readReg (.surfTag i)).toNat = if (s.regs.surf i).tag = .chroma then 1 else 0 := by
  rw [State.readReg]
  cases (s.regs.surf i).tag <;> rfl

/-- DIM holds the width in its low and the height in its high half (rule R24). -/
theorem readReg_dim_halves (s : State) :
    (s.readReg .dim).extractLsb' 0 16 = s.regs.width ∧ (s.readReg .dim).extractLsb' 16 16 = s.regs.height :=
  ⟨BitVec.extractLsb'_append_eq_right, BitVec.extractLsb'_append_eq_left⟩

/-- Settles O55: an access at a register's offset reads that register, and each register's word holds its field. -/
theorem registerReadsFollowTheMap : Obligations.RegisterReadsFollowTheMap := by
  intro s
  refine ⟨hostMove_read_reg .cmd s, hostMove_read_reg .status s, ⟨_, hostMove_read_reg .irqEn s, readReg_irqEn_toNat s⟩,
    hostMove_read_reg .errInfo s, ⟨_, hostMove_read_reg .dim s, readReg_dim_halves s⟩,
    ⟨_, hostMove_read_reg .k s, readReg_k_toNat s⟩, hostMove_read_reg .rangeFirst s, hostMove_read_reg .rangeCount s,
    hostMove_read_reg .idxBase s, hostMove_read_reg .outBase s, hostMove_read_reg .outSize s, fun i => ?_⟩
  exact ⟨hostMove_read_reg (.surfBase i) s, hostMove_read_reg (.surfCount i) s, _, hostMove_read_reg (.surfTag i) s,
    readReg_surfTag_toNat s i⟩

/-! ### Writing the registers while BUSY -/

theorem writeReg_of_busy {s : State} {reg : Reg} (hb : s.busy = true)
    (hr : reg ≠ .status ∧ reg ≠ .irqEn ∧ reg ≠ .reserved) (v : Word) : s.writeReg reg v = { s with wbusy := true } := by
  obtain ⟨h1, h2, h3⟩ := hr
  cases reg <;> simp_all [State.writeReg]

/-- An offset that rule R23 does not reserve is a register's own (rule R24). -/
theorem exists_reg_at_offset {off : Nat} (h4 : off % 4 = 0) (hlt : off < 0x80) (hr : ¬ ReservedOffset off) :
    ∃ reg : Reg, reg ≠ .reserved ∧ off = reg.offset := by
  have hreg : Reg.ofIndex (off / 4) ≠ .reserved := fun h => hr ((ofIndex_eq_reserved_iff h4 hlt).1 h)
  exact ⟨_, hreg, (offset_of_ofIndex ((regAccessOk_iff off 4).2 ⟨rfl, h4, hlt⟩) rfl hreg).2⟩

/-- Settles O34: the offset is a register's, and a busy block's register write sets WBUSY unless the register is
STATUS or IRQ_EN. -/
theorem writesWhileBusyAreDropped : Obligations.WritesWhileBusyAreDropped := by
  intro s off v rest hb hs h4 hlt hreserved
  obtain ⟨reg, hreg, rfl⟩ := exists_reg_at_offset h4 hlt hreserved
  refine ⟨fun hstatus hirq => ?_, fun hstatus => ?_, fun hirq => ?_⟩
  · have hother : reg ≠ .status ∧ reg ≠ .irqEn ∧ reg ≠ .reserved :=
      ⟨fun h => hstatus (by rw [h]; rfl), fun h => hirq (by rw [h]; rfl), hreg⟩
    rw [step_hostWr hs, writeReg_of_busy (s := { s with schedule := rest }) hb hother]
  · rw [hstatus] at hs
    exact step_hostWr (reg := .status) hs
  · rw [hirq] at hs
    exact step_hostWr (reg := .irqEn) hs

/-! ### Writing the registers while idle -/

/-- A register write sets the one field of the one surface that stands at its offset (rules R24, R32). -/
theorem surf_write (c : ConfigRegs) (reg : Reg) (v : Word) (j : SurfNum) :
    (c.write reg v).surf j =
      { base  := if reg = .surfBase j then v else (c.surf j).base
        count := if reg = .surfCount j then v else (c.surf j).count
        tag   := if reg = .surfTag j then Tag.ofBit (v.getLsbD 0) else (c.surf j).tag } := by
  cases reg with
  | surfBase i | surfCount i | surfTag i =>
    rcases eq_or_ne j i with rfl | h
    · simp [ConfigRegs.write]
    · simp [ConfigRegs.write, surf_setSurf, h, h.symm]
  | _ => rfl

theorem tag_ofBit_bit (b : Bool) : (Tag.ofBit b).bit = BitVec.ofBool b := by
  cases b <;> rfl

theorem setWidth_ofBool_getLsbD_zero (v : Word) : (BitVec.ofBool (v.getLsbD 0)).setWidth 32 = v &&& 1#32 := by
  refine BitVec.eq_of_getLsbD_eq fun i hi => ?_
  rcases Nat.eq_zero_or_pos i with rfl | hpos
  · simp
  · simp [BitVec.getLsbD_one, BitVec.getLsbD_ofBool, Nat.pos_iff_ne_zero.1 hpos]

theorem setWidth_extractLsb'_low (v : Word) : (v.extractLsb' 0 9).setWidth 32 = v &&& 0x1FF#32 := by
  refine BitVec.eq_of_toNat_eq ?_
  rw [BitVec.toNat_setWidth_of_le (by norm_num), BitVec.extractLsb'_toNat, BitVec.toNat_and]
  exact (Nat.and_two_pow_sub_one_eq_mod v.toNat 9).symm

theorem extractLsb'_low_setWidth (x : BitVec 9) : (x.setWidth 32).extractLsb' 0 9 = x := by
  refine BitVec.eq_of_toNat_eq ?_
  rw [BitVec.extractLsb'_toNat, BitVec.toNat_setWidth_of_le (by norm_num)]
  exact Nat.mod_eq_of_lt x.isLt

theorem high_append_low_half (v : Word) : v.extractLsb' 16 16 ++ v.extractLsb' 0 16 = v := by
  rw [BitVec.extractLsb'_append_extractLsb'_eq_extractLsb' (show 16 = 0 + 16 from rfl), BitVec.extractLsb'_eq_self]

/-- The host's write of an idle block's configuration register sets it and changes nothing else (rule R24). -/
theorem hostMove_write_config {s : State} {reg : Reg} (hb : s.busy = false)
    (hr : reg ≠ .cmd ∧ reg ≠ .status ∧ reg ≠ .irqEn) (v : Word) :
    hostMove (.regWrite reg.offset 4 v) s = .next { s with regs := s.regs.write reg v } := by
  rw [hostMove_write_reg, writeReg_config hb hr]

/-- A write of one configuration register leaves what every other register reads. -/
theorem readReg_write_of_ne (s : State) {reg reg' : Reg} (h : reg' ≠ reg) (v : Word) :
    ({ s with regs := s.regs.write reg v } : State).readReg reg' = s.readReg reg' := by
  cases reg' with
  | surfBase j => simp only [State.readReg, surf_write, if_neg h.symm]
  | surfCount j => simp only [State.readReg, surf_write, if_neg h.symm]
  | surfTag j => simp only [State.readReg, surf_write, if_neg h.symm]
  | cmd | status | irqEn | errInfo | reserved => rfl
  | dim | k | rangeFirst | rangeCount | idxBase | outBase | outSize =>
    cases reg <;> simp_all [State.readReg, ConfigRegs.write]

theorem writeReg_other_read {s : State} {reg reg' : Reg} (hb : s.busy = false) (hcmd : reg ≠ .cmd)
    (hstatus : reg ≠ .status) (h : reg' ≠ reg) (v : Word) : (s.writeReg reg v).readReg reg' = s.readReg reg' := by
  by_cases hirq : reg = .irqEn
  · subst hirq
    cases reg' with
    | irqEn => exact absurd rfl h
    | _ => rfl
  · rw [writeReg_config hb ⟨hcmd, hstatus, hirq⟩, readReg_write_of_ne s h]

/-- Settles O36: while idle every write but those of CMD, STATUS and IRQ_EN is `ConfigRegs.write` on the registers,
whose effect on each field is known. -/
theorem configurationRegistersReadBack : Obligations.ConfigurationRegistersReadBack := by
  refine ⟨fun s v hb => ?map, fun c i j x => ⟨surf_setSurf c i j x, rfl⟩, fun s v hb => ?readBack⟩
  case map =>
    exact ⟨hostMove_write_reg .irqEn v s, hostMove_write_config (reg := .errInfo) hb (by decide) v,
      hostMove_write_config (reg := .dim) hb (by decide) v, hostMove_write_config (reg := .k) hb (by decide) v,
      hostMove_write_config (reg := .rangeFirst) hb (by decide) v,
      hostMove_write_config (reg := .rangeCount) hb (by decide) v,
      hostMove_write_config (reg := .idxBase) hb (by decide) v,
      hostMove_write_config (reg := .outBase) hb (by decide) v,
      hostMove_write_config (reg := .outSize) hb (by decide) v, fun i =>
        ⟨hostMove_write_config (reg := .surfBase i) hb (by simp) v,
          hostMove_write_config (reg := .surfCount i) hb (by simp) v,
          hostMove_write_config (reg := .surfTag i) hb (by simp) v⟩⟩
  case readBack =>
    refine ⟨?dim, ?k, setWidth_ofBool_getLsbD_zero v, ?words, fun i => ⟨?base, ?count, ?tag⟩,
      fun reg reg' hcmd hstatus h => writeReg_other_read hb hcmd hstatus h v⟩
    case dim =>
      rw [writeReg_config hb (by decide)]
      exact high_append_low_half v
    case k =>
      rw [writeReg_config hb (by decide)]
      exact setWidth_extractLsb'_low v
    case words =>
      rintro reg (rfl | rfl | rfl | rfl | rfl) <;> rw [writeReg_config hb (by decide)] <;> rfl
    case base =>
      rw [writeReg_config hb (by simp), State.readReg, surf_write, if_pos rfl]
    case count =>
      rw [writeReg_config hb (by simp), State.readReg, surf_write, if_pos rfl]
    case tag =>
      rw [writeReg_config hb (by simp), State.readReg, surf_write, if_pos rfl, tag_ofBit_bit,
        setWidth_ofBool_getLsbD_zero]

/-! ### Reserved offsets and fields -/

theorem regAccessOk_reserved {off : Nat} (hr : ReservedOffset off) (h4 : off % 4 = 0) :
    regAccessOk off 4 = true ∧ Reg.ofIndex (off / 4) = .reserved := by
  have hlt : off < 0x80 := by
    unfold ReservedOffset at hr
    omega
  exact ⟨(regAccessOk_iff off 4).2 ⟨rfl, h4, hlt⟩, (ofIndex_eq_reserved_iff h4 hlt).2 hr⟩

/-- A host write takes of IRQ_EN and SURFi_TAG bit 0, of STATUS bits 1 and 2, of K bits 8:0 (rules R23, R24). -/
theorem writeReg_masked (s : State) (v : Word) :
    s.writeReg .status v = s.writeReg .status (v &&& 0x6#32)
      ∧ s.writeReg .irqEn v = s.writeReg .irqEn (v &&& 1#32)
      ∧ s.writeReg .k v = s.writeReg .k (v &&& 0x1FF#32)
      ∧ ∀ i, s.writeReg (.surfTag i) v = s.writeReg (.surfTag i) (v &&& 1#32) := by
  have hbit : (v &&& 1#32).getLsbD 0 = v.getLsbD 0 := by simp
  have hk : (v &&& 0x1FF#32).extractLsb' 0 9 = v.extractLsb' 0 9 := by
    rw [← setWidth_extractLsb'_low, extractLsb'_low_setWidth]
  refine ⟨by simp [State.writeReg, State.acknowledge], ?_, ?_, fun i => ?_⟩
  · rw [writeReg_irqEn, writeReg_irqEn, hbit]
  · simp only [State.writeReg, ConfigRegs.write, hk]
  · simp only [State.writeReg, ConfigRegs.write, hbit]

/-- Settles O37: a reserved offset leads to the reserved register, and the defined fields are all that the others
hold. -/
theorem reservedOffsetsAndFieldsReadZero : Obligations.ReservedOffsetsAndFieldsReadZero := by
  refine ⟨fun s off v hr h4 => ?_, fun s => ⟨?status, ?irqEn, ?k, fun i => ?tag⟩, writeReg_masked⟩
  · obtain ⟨hok, hreg⟩ := regAccessOk_reserved hr h4
    exact ⟨by rw [hostMove_regWrite_ok hok, hreg]; rfl, by rw [hostMove_regRead_ok hok, hreg]; rfl⟩
  case status =>
    rw [State.readReg, State.statusWord]
    generalize s.busy = busy, s.done = done, s.wbusy = wbusy, s.err = err
    revert busy done wbusy
    cases err <;> decide
  case irqEn =>
    rw [State.readReg]
    cases s.doneIe <;> rfl
  case k =>
    have hlow : s.readReg .k = s.readReg .k &&& 0x1FF#32 := by
      rw [← setWidth_extractLsb'_low, State.readReg, extractLsb'_low_setWidth]
    rw [hlow, BitVec.and_assoc]
    exact BitVec.and_zero
  case tag =>
    rw [State.readReg]
    cases (s.regs.surf i).tag <;> rfl

end Sys2Proof.Machine
end

section
/-! PROOFS. The host's accesses to the buffer memory, racing or not, and what reset leaves of it (20_memory.md rules
R61, R68 and R73, 70_reset_and_hazards.md rules R211, R212 and R221). -/

namespace Sys2Proof.Machine

/-! ### Writes -/

/-- A host write's bytes stand at its addresses, the least significant first, and no other byte changes (rule R61). -/
theorem readByte_writeBytes_bytesOfWord (m : Memory) (a : Nat) {width j : Nat} (hj : j < width) (v : Word) :
    (m.writeBytes a (bytesOfWord v width)).readByte (a + j) = v.extractLsb' (8 * j) 8 := by
  rw [readByte_writeBytes_inside (by simpa using hj), bytesOfWord_getElem]

theorem onlyWithin_writeBytes_bytesOfWord (m : Memory) (a width : Nat) (v : Word) :
    OnlyWithin m (m.writeBytes a (bytesOfWord v width)) a width := by
  simpa using onlyWithin_writeBytes m a (bytesOfWord v width)

/-- A write's last byte apart from the others (rule R61). -/
theorem bytesOfWord_succ (v : Word) (n : Nat) :
    bytesOfWord v (n + 1) = bytesOfWord v n ++ [v.extractLsb' (8 * n) 8] := by
  simp [bytesOfWord, List.range_succ]

theorem bytesOfWord_one_shiftRight (v : Word) (n : Nat) : bytesOfWord (v >>> n) 1 = [v.extractLsb' n 8] := by
  have hbyte : (v >>> n).extractLsb' 0 8 = v.extractLsb' n 8 := by
    ext i hi
    simp
  simp [bytesOfWord, hbyte]

theorem races_eq_false_iff (s : State) (a width : Nat) :
    s.races a width = false ↔ ∀ j, j < width → s.inFootprint (a + j) = false := by
  simp [State.races]

theorem races_one (s : State) (a : Nat) : s.races a 1 = s.inFootprint a := by
  simp [State.races]

/-- Settles O40: by induction on the width, the last byte being written behind the others; the footprint is that of the
pending command, which no write changes. -/
theorem wideWritesAreByteWrites : Obligations.WideWritesAreByteWrites := by
  intro s a width v hclean
  rw [races_eq_false_iff] at hclean
  rw [hostWrite_of_clean ((races_eq_false_iff ..).2 hclean)]
  induction width with
  | zero => rfl
  | succ n ih =>
    rw [List.range_succ, List.foldl_append, ← ih fun j hj => hclean j (Nat.lt_succ_of_lt hj), List.foldl_cons,
      List.foldl_nil, hostWrite_of_clean, bytesOfWord_succ, writeBytes_append, bytesOfWord_length,
      bytesOfWord_one_shiftRight]
    rw [races_one]
    exact hclean n (Nat.lt_succ_self n)

/-! ### Reads -/

/-- Byte `j` of what a host read returns (rules R61, R221). -/
theorem hostRead_byte {s : State} (a : Nat) {width j : Nat} (hwidth : width ≤ 4) (hj : j < width) :
    (wordOfBytes ((List.range width).map (s.hostByte a))).extractLsb' (8 * j) 8 = s.hostByte a j := by
  rw [extractLsb'_wordOfBytes _ j (by simpa using hj) (by omega), List.getElem_map, List.getElem_range]

theorem hostRead_of_clean {s : State} {a width : Nat} (h : s.races a width = false) :
    s.hostRead a width = { s with readData := (s.hostRead a width).readData } := by
  simp [State.hostRead, h]

theorem hostByte_of_clean {s : State} {a j : Nat} (h : s.inFootprint (a + j) = false) :
    s.hostByte a j = s.mem.readByte (a + j) := by
  simp [State.hostByte, h]

theorem width_le_four {width : Nat} (h : bufferWidthOk width = true) : width ≤ 4 := by
  rw [bufferWidthOk_iff] at h
  omega

/-- Settles O39: each of rule R61's checks refuses under its own name, and outside a footprint the access is a plain
write or read of the bytes. -/
theorem bufferAccessesAreLittleEndian : Obligations.BufferAccessesAreLittleEndian := by
  intro s a width v
  simp only [← bufferWidthOk_iff]
  refine ⟨fun hw => ⟨hostMove_memWrite_badWidth hw, hostMove_memRead_badWidth hw⟩,
    fun hw ha => ⟨hostMove_memWrite_outside hw ha, hostMove_memRead_outside hw ha⟩, fun hw ha hclean => ⟨?write, ?read⟩⟩
  case write =>
    refine ⟨_, hostMove_memWrite_ok hw ha v, ?_⟩
    rw [hostWrite_of_clean hclean]
    exact ⟨rfl, onlyWithin_writeBytes_bytesOfWord _ a width v, fun j hj => readByte_writeBytes_bytesOfWord _ _ hj v⟩
  case read =>
    refine ⟨_, _, hostMove_memRead_ok hw ha, hostRead_of_clean hclean, ?_, fun j hj => ?_⟩
    · simpa using wordOfBytes_lt ((List.range width).map (s.hostByte a))
    · rw [hostRead_byte a (width_le_four hw) hj, hostByte_of_clean ((races_eq_false_iff ..).1 hclean j hj)]

/-! ### What a host access leaves -/

/-- What a register holds does not depend on the moves still to come. -/
theorem readReg_schedule (s : State) (es : List Event) (reg : Reg) :
    ({ s with schedule := es } : State).readReg reg = s.readReg reg := by
  cases reg <;> rfl

theorem eq_of_regRead {off width : Nat} {s t : State} (h : hostMove (.regRead off width) s = .next t) :
    t = { s with readData := some (s.readReg (Reg.ofIndex (off / 4))) } := by
  by_cases hok : regAccessOk off width = true
  · exact Host.Outcome.next.inj (h.symm.trans (hostMove_regRead_ok hok s))
  · exact absurd (h.symm.trans (hostMove_regRead_refused hok s)) nofun

/-- A buffer read that is not refused is `State.hostRead` at a width of at most four bytes. -/
theorem eq_hostRead_of_memRead {a width : Nat} {s t : State} (h : hostMove (.memRead a width) s = .next t) :
    t = s.hostRead a width ∧ width ≤ 4 := by
  rcases hostMove_cases h with ⟨_, _, _, hop, -⟩ | ⟨_, _, hop, -⟩ | ⟨_, _, _, hop, -⟩ | ⟨_, _, hop, hw, -, ht⟩
    | ⟨hop, -⟩ | ⟨hop, -⟩ <;> cases hop
  exact ⟨ht, width_le_four hw⟩

/-- Settles O41: a register read sets `readData` only, and so does a buffer read outside the footprint; a racing one
sets the race mark and the draw counter beside it. -/
theorem readsHaveNoSideEffects : Obligations.ReadsHaveNoSideEffects := by
  intro s t op rest hs h
  have hmove : hostMove op { s with schedule := rest } = .next t := (step_host hs).symm.trans h
  refine ⟨?register, ?clean, ?any⟩
  case register =>
    rintro off width rfl
    rw [eq_of_regRead hmove, readReg_schedule]
  case clean =>
    rintro a width rfl hclean
    rw [(eq_hostRead_of_memRead hmove).1]
    exact hostRead_of_clean (s := { s with schedule := rest }) hclean
  case any =>
    rintro a width rfl
    rw [(eq_hostRead_of_memRead hmove).1]
    exact ⟨rfl, rfl, rfl⟩

theorem writeReg_mem (reg : Reg) (v : Word) (s : State) : (s.writeReg reg v).mem = s.mem := by
  rcases writeReg_cases reg v s with h | ⟨-, h⟩ | ⟨-, h⟩ | ⟨-, h⟩ | ⟨-, -, h⟩ | ⟨-, h⟩ <;> rw [h] <;> rfl

/-- A host write outside the footprint leaves every byte of the footprint. -/
theorem hostWrite_of_clean_footprint {s : State} {a width x : Nat} (hclean : s.races a width = false)
    (hx : s.inFootprint x = true) (v : Word) : (s.hostWrite a width v).mem.readByte x = s.mem.readByte x := by
  rw [hostWrite_of_clean hclean]
  refine onlyWithin_writeBytes_bytesOfWord s.mem a width v x fun ⟨hle, hlt⟩ => ?_
  have hout := (races_eq_false_iff ..).1 hclean (x - a) (by omega)
  rw [Nat.add_sub_cancel' hle] at hout
  exact absurd (hx.symm.trans hout) nofun

/-- A host move that leaves the race mark clear leaves every byte of a pending command's footprint, unless it asserts
reset (rules R35, R73). -/
theorem hostMove_keeps_footprint {op : HostOp} {s t : State} {x : Nat} (h : hostMove op s = .next t)
    (hop : op ≠ .resetLine true) (hsafe : t.Safe) (hx : s.inFootprint x = true) :
    t.mem.readByte x = s.mem.readByte x := by
  rcases hostMove_cases h with ⟨off, width, v, -, -, rfl⟩ | ⟨off, width, -, -, rfl⟩
    | ⟨a, width, v, -, -, -, rfl⟩ | ⟨a, width, -, -, -, rfl⟩ | ⟨hreset, -⟩ | ⟨-, rfl⟩
  case inr.inr.inr.inr.inl => exact absurd hreset hop
  · rw [writeReg_mem]
  · rfl
  · rw [State.Safe, hostWrite_race, Bool.or_eq_false_iff] at hsafe
    exact hostWrite_of_clean_footprint hsafe.2 hx v
  · rfl
  · rfl

/-- Settles O45: such a step is a host move that does not race, so a write stays off the footprint and a read returns
the bytes themselves. -/
theorem safeHostStepsSeeNoPartialResult : Obligations.SafeHostStepsSeeNoPartialResult := by
  intro s t p op rest hp hs hop h hsafe
  have hmove : hostMove op { s with schedule := rest } = .next t := (step_host hs).symm.trans h
  refine ⟨(hostMove_keeps_pending hmove hp).resolve_right hop,
    fun x hx => hostMove_keeps_footprint (s := { s with schedule := rest }) hmove hop hsafe hx, ?read⟩
  rintro a width rfl
  obtain ⟨rfl, hwidth⟩ := eq_hostRead_of_memRead hmove
  rw [State.Safe, hostRead_race, Bool.or_eq_false_iff] at hsafe
  refine ⟨_, rfl, fun j hj => ?_⟩
  rw [hostRead_byte a hwidth hj, hostByte_of_clean ((races_eq_false_iff ..).1 hsafe.2 j hj)]

/-! ### Races -/

theorem inFootprint_of_pending {s : State} {p : Pending} (h : s.pending = some p) (x : Nat) :
    s.inFootprint x = p.footprint.any (·.contains x) := by
  simp [State.inFootprint, h]

/-- A racing write leaves outside the footprint what a plain write leaves (rules R61, R221). -/
theorem readByte_hostWrite_of_race {s : State} {p : Pending} {a width x : Nat} (hp : s.pending = some p)
    (hrace : s.races a width = true) (hx : s.inFootprint x = false) (v : Word) :
    (s.hostWrite a width v).mem.readByte x = (s.mem.writeBytes a (bytesOfWord v width)).readByte x := by
  rw [hostWrite_of_race hp hrace]
  rw [inFootprint_of_pending hp] at hx
  exact readByte_scrambleAll_outside (s := { s with mem := s.mem.writeBytes a (bytesOfWord v width) }) hx

/-- Settles O44: the racing write's draws stay in the footprint, and the racing read changes no byte. -/
theorem racingAccessesDisturbOnlyTheFootprint : Obligations.RacingAccessesDisturbOnlyTheFootprint := by
  intro s p a width v hp hrace hw ha
  rw [← bufferWidthOk_iff] at hw
  refine ⟨⟨_, hostMove_memWrite_ok hw ha v, ?mark, (hostWrite_pending ..).trans hp, fun j hj hx => ?written,
      fun x hout hx => ?others⟩,
    _, _, hostMove_memRead_ok hw ha, ?markRead, hp, rfl, rfl, fun j hj => hostRead_byte a (width_le_four hw) hj⟩
  case mark => rw [hostWrite_race, hrace, Bool.or_true]
  case written => rw [readByte_hostWrite_of_race hp hrace hx, readByte_writeBytes_bytesOfWord _ _ hj]
  case others => rw [readByte_hostWrite_of_race hp hrace hx, onlyWithin_writeBytes_bytesOfWord s.mem a width v x hout]
  case markRead => rw [hostRead_race, hrace, Bool.or_true]

/-! ### Reset -/

theorem onlyWithin_scramble (s : State) (e : Extent) : OnlyWithin s.mem (s.scramble e).mem e.base e.len := fun x hx =>
  readByte_scramble_outside (by rwa [← Bool.not_eq_true, contains_iff])

/-- Every byte of a scrambled extent inside the buffer is a draw (rules R185, R212). -/
theorem readByte_scramble_inside {s : State} {e : Extent} {j : Nat} (hj : j < e.len)
    (hin : e.base + j < s.params.memBytes) :
    (s.scramble e).mem.readByte (e.base + j) = Config.freeByte (s.draws + j) := by
  have hclip : j < (freeBytes s.draws (e.clip s.params.memBytes).len).length := by
    simp only [freeBytes_length, Extent.clip]
    omega
  exact (readByte_writeBytes_inside hclip).trans (freeBytes_getElem hclip)

/-- Reset with a legal command pending draws that command's write extent anew and keeps the other bytes (rules R211,
R212). -/
theorem assertReset_mem_of_command {s : State} {p : Pending} {i : Instr} (hp : s.pending = some p)
    (hd : decode p.word = some i) : s.assertReset.mem = (s.scramble (writeExtent i p.snap)).mem := by
  rw [assertReset_of_pending hp, Pending.writes, hd]
  rfl

theorem assertReset_done (s : State) : s.assertReset.done = false :=
  (congrArg State.done (assertReset_frame s) :)

/-- Settles O48: the only bytes that the assertion of reset writes are those of the write extents of the dropped
command, of which an idle block and an illegal word have none. -/
theorem resetKeepsTheBufferButTheWriteExtent : Obligations.ResetKeepsTheBufferButTheWriteExtent := by
  refine ⟨fun s rest hs hidle => ?idle, fun s p rest hs hp hd => ?illegal, fun s p i rest hs hp hd => ?command⟩
  case idle =>
    refine ⟨_, step_assertReset hs, ?_⟩
    rw [assertReset_of_idle (s := { s with schedule := rest }) hidle]
    rfl
  case illegal =>
    exact ⟨_, step_assertReset hs, assertReset_pending _, assertReset_done _,
      assertReset_mem_of_illegal (s := { s with schedule := rest }) hp hd⟩
  case command =>
    refine ⟨_, step_assertReset hs, assertReset_pending _, assertReset_done _, ?_⟩
    rw [assertReset_mem_of_command (s := { s with schedule := rest }) hp hd]
    exact ⟨onlyWithin_scramble { s with schedule := rest } _,
      fun j hj hin => readByte_scramble_inside (s := { s with schedule := rest }) hj hin⟩

end Sys2Proof.Machine
end

section
/-! PROOFS. What a command's completion writes: its write extent, a converter's destination tag, and on failure
nothing or draws (20_memory.md rule R70, 10_state.md rule R32, 60_exceptions.md rules R185 and R186). -/

namespace Sys2Proof.Machine

/-! ### The registers after a completion -/

/-- A CSC command that succeeds sets its destination's tag; one that fails leaves the registers (rules R120, R125,
R185). -/
theorem applyTag_cscResult (pixel : Params → Nat → Byte → Byte → Byte → List Byte) (tag : Tag) (src dst : SurfNum)
    (range : Bool) (s : State) (c : ConfigRegs) :
    (cscResult pixel tag src dst range s).applyTag c
      = if (cscResult pixel tag src dst range s).err = .ok then c.setTag dst tag else c := by
  by_cases hwf : CscWellFormed src dst range s.operands s.params.memBytes
  · rw [if_pos ((cscResult_err_eq_ok_iff ..).2 hwf), cscResult_of_wellFormed hwf]
    rfl
  · obtain ⟨e, hne, he⟩ := cscResult_eq_fail_of_not_wellFormed pixel tag hwf
    rw [he, if_neg (show (Result.fail e).err ≠ .ok from hne)]
    rfl

theorem applyTag_packResult (pal : SurfNum) (s : State) (c : ConfigRegs) : (packResult pal s).applyTag c = c := by
  simp only [packResult]
  split
  · rfl
  · split <;> rfl

theorem applyTag_unpackResult (s : State) (c : ConfigRegs) : (unpackResult s).applyTag c = c := by
  simp only [unpackResult]
  split
  · rfl
  · split <;> rfl

/-- The registers change on OK only (rule R185). -/
theorem applyTag_of_err_ne_ok {i : Instr} {s : State} (h : (commandResult i s).err ≠ .ok) (c : ConfigRegs) :
    (commandResult i s).applyTag c = c := by
  cases i with
  | cscFwd src dst range => exact (applyTag_cscResult ..).trans (if_neg h)
  | cscInv src dst range => exact (applyTag_cscResult ..).trans (if_neg h)
  | pack pal => exact applyTag_packResult pal s c
  | unpack => exact applyTag_unpackResult s c

/-! ### The bytes a completion writes -/

@[simp] theorem indexError_base (p draws : Nat) (e : Extent) : (indexError p draws e).base = e.base := rfl

@[simp] theorem indexError_bytes (p draws : Nat) (e : Extent) :
    (indexError p draws e).bytes = freeBytes draws e.len := rfl

/-- Every result writes inside the write extent that rule R70 gives its command. -/
theorem onlyWithin_commandResult (i : Instr) (s : State) (m : Memory) :
    OnlyWithin m (m.writeBytes (commandResult i s).base (commandResult i s).bytes)
      (writeExtent i s.operands).base (writeExtent i s.operands).len := by
  rcases commandResult_cases i s with ⟨e, -, -, h⟩ | ⟨p, h, -⟩ | ⟨-, -, hbase, hlen, -⟩
  · rw [h]
    exact fun _ _ => rfl
  · rw [h]
    simpa using onlyWithin_writeBytes m (writeExtent i s.operands).base
      (freeBytes s.draws (writeExtent i s.operands).len)
  · rw [hbase, ← hlen]
    exact onlyWithin_writeBytes m _ _

/-- Settles O28: the completion writes the result's bytes, ERR_INFO and tag, each of which is known for every command.
-/
theorem commandsWriteOnlyTheirWriteExtent : Obligations.CommandsWriteOnlyTheirWriteExtent := by
  intro i s
  refine ⟨_, exec_eq i s, completionFrame_complete .., onlyWithin_commandResult i s s.mem, fun herr => ?info, ?fwd,
    ?inv, ?pack, ?unpack⟩
  case info => rw [complete_errInfo, commandResult_info_of_err_ne herr, Option.getD_none]
  case fwd => rintro src dst range rfl; exact applyTag_cscResult ..
  case inv => rintro src dst range rfl; exact applyTag_cscResult ..
  case pack => rintro pal rfl; exact applyTag_packResult ..
  case unpack => rintro rfl; exact applyTag_unpackResult ..

/-- Settles O29: a result with an error is a failure, which writes nothing, or an INDEX_OUT_OF_RANGE, which draws the
whole write extent. -/
theorem failedCommandsChangeOnlyTheirWriteExtent : Obligations.FailedCommandsChangeOnlyTheirWriteExtent := by
  refine ⟨fun i s t hexec herr => ?_, fun s => ⟨_, rfl, rfl, rfl, rfl, rfl, rfl⟩⟩
  obtain rfl := exec_next_iff.1 hexec
  refine ⟨rfl, rfl, applyTag_of_err_ne_ok herr s.regs, fun hne => ?fail, fun hindex => ?index⟩
  case fail =>
    rcases commandResult_cases i s with ⟨e, -, -, h⟩ | ⟨p, h, -⟩ | ⟨hok, -⟩
    · rw [h]
      exact (complete_fail_unchanged e s).1
    · exact absurd (congrArg Result.err h) hne
    · exact absurd hok herr
  case index =>
    rcases commandResult_cases i s with ⟨e, -, hne, h⟩ | ⟨p, h, -⟩ | ⟨hok, -⟩
    · exact absurd ((congrArg Result.err h).symm.trans hindex) hne
    · refine ⟨fun j hj => ?_, onlyWithin_commandResult i s s.mem, by rw [complete_draws, h]; rfl⟩
      rw [h]
      exact (readByte_writeBytes_inside (by simpa using hj)).trans (freeBytes_getElem _)
    · exact absurd hok herr

/-! ### Tags -/

/-- A command's completion changes surface `j`'s tag only if it is an OK of a converter into that surface (rule R32).
-/
theorem tag_change_of_commandResult {i : Instr} {s : State} {c : ConfigRegs} {j : SurfNum}
    (h : (((commandResult i s).applyTag c).surf j).tag ≠ (c.surf j).tag) :
    (commandResult i s).err = .ok
    ∧ ((∃ src range, i = .cscFwd src j range ∧ (((commandResult i s).applyTag c).surf j).tag = .chroma)
      ∨ ∃ src range, i = .cscInv src j range ∧ (((commandResult i s).applyTag c).surf j).tag = .color) := by
  have hok : (commandResult i s).err = .ok := by
    by_contra herr
    rw [applyTag_of_err_ne_ok herr] at h
    exact h rfl
  have hcsc : ∀ pixel tag src dst range, commandResult i s = cscResult pixel tag src dst range s →
      j = dst ∧ (((commandResult i s).applyTag c).surf j).tag = tag := by
    intro pixel tag src dst range hi
    have hregs : (commandResult i s).applyTag c = c.setTag dst tag := by
      rw [hi, applyTag_cscResult, if_pos (hi ▸ hok)]
    rw [hregs, surf_setTag] at h ⊢
    by_cases hj : j = dst
    · rw [if_pos hj]
      exact ⟨hj, rfl⟩
    · rw [if_neg hj] at h
      exact absurd rfl h
  refine ⟨hok, ?_⟩
  cases i with
  | cscFwd src dst range =>
    obtain ⟨rfl, htag⟩ := hcsc _ _ _ _ _ rfl
    exact .inl ⟨src, range, rfl, htag⟩
  | cscInv src dst range =>
    obtain ⟨rfl, htag⟩ := hcsc _ _ _ _ _ rfl
    exact .inr ⟨src, range, rfl, htag⟩
  | pack pal => exact absurd (by rw [commandResult, applyTag_packResult]) h
  | unpack => exact absurd (by rw [commandResult, applyTag_unpackResult]) h

/-- A host move changes surface `j`'s tag only if it writes SURFj_TAG or asserts reset (rule R32). -/
theorem tag_change_of_hostMove {op : HostOp} {s t : State} {j : SurfNum} (h : hostMove op s = .next t)
    (hne : (t.regs.surf j).tag ≠ (s.regs.surf j).tag) :
    (∃ v, op = .regWrite (Reg.surfTag j).offset 4 v ∧ (t.regs.surf j).tag = Tag.ofBit (v.getLsbD 0))
    ∨ (op = .resetLine true ∧ (t.regs.surf j).tag = .color) := by
  rcases hostMove_cases h with ⟨off, width, v, rfl, hok, rfl⟩ | ⟨off, width, -, -, rfl⟩
    | ⟨a, width, v, -, -, -, rfl⟩ | ⟨a, width, -, -, -, rfl⟩ | ⟨rfl, rfl⟩ | ⟨-, rfl⟩
  case inl =>
    rcases writeReg_cases (Reg.ofIndex (off / 4)) v s with hw | ⟨-, hw⟩ | ⟨-, hw⟩ | ⟨-, hw⟩ | ⟨-, -, hw⟩ | ⟨-, hw⟩
      <;> rw [hw] at hne ⊢
    case inr.inr.inr.inr.inr =>
      simp only [surf_write] at hne ⊢
      by_cases hreg : Reg.ofIndex (off / 4) = .surfTag j
      · obtain ⟨rfl, rfl⟩ := offset_of_ofIndex hok hreg (by simp)
        exact .inl ⟨v, rfl, if_pos hreg⟩
      · exact absurd (if_neg hreg) hne
    all_goals exact absurd rfl hne
  case inr.inr.inl => exact absurd (by rw [hostWrite_regs]) hne
  case inr.inr.inr.inr.inl =>
    refine .inr ⟨rfl, ?_⟩
    rw [assertReset_regs, reset_surf]
    rfl
  all_goals exact absurd rfl hne

/-- Settles O54: of the moves a step can be, only these write a tag. -/
theorem onlyConvertersTheHostAndResetWriteTags : Obligations.OnlyConvertersTheHostAndResetWriteTags := by
  intro s t j h hne
  rcases step_next_cases h with ⟨-, rfl⟩ | ⟨p, hn, hr, hp, rfl⟩ | ⟨op, rest, hs, hmove⟩
  · exact absurd rfl hne
  · cases hd : decode p.word with
    | none =>
      rw [pendingResult_of_none hd] at hne
      exact absurd rfl hne
    | some i =>
      rw [pendingResult_of_some hd] at hne ⊢
      obtain ⟨hok, ⟨src, range, rfl, htag⟩ | ⟨src, range, rfl, htag⟩⟩ := tag_change_of_commandResult hne
      · exact .inr (.inr (.inl ⟨p, src, range, hp, hd, hn, hr, rfl, rfl, hok, htag⟩))
      · exact .inr (.inr (.inr ⟨p, src, range, hp, hd, hn, hr, rfl, rfl, hok, htag⟩))
  · rcases tag_change_of_hostMove hmove hne with ⟨v, rfl, htag⟩ | ⟨rfl, htag⟩
    · exact .inl ⟨v, rest, hs, htag⟩
    · exact .inr (.inl ⟨rest, hs, htag⟩)

end Sys2Proof.Machine
end

section
/-! PROOFS. UNPACK: the indices it writes, powers of two, and what it does not read (41_packer.md rule R160). -/

namespace Sys2Proof.Machine

/-- Settles O20: below `k` the decoded bytes hold the stream's numbers, and `exec_unpack_ok` writes them. -/
theorem unpackWritesTheDecodedIndices : Obligations.UnpackWritesTheDecodedIndices := by
  intro s c hwf hidx
  have hdecoded : ∀ p, (unpackIndexAt c s.mem p).toNat = streamIndex c s.mem p := toNat_unpackIndexAt hwf.1.2 s.mem
  obtain ⟨t, hexec, hok, hwritten, honly⟩ := exec_unpack_ok hwf fun p hp => by
    rw [hdecoded p]
    exact hidx p hp
  refine ⟨t, hexec, fun p hp => by rw [hwritten p hp, hdecoded p], honly, ?_⟩
  obtain rfl := exec_next_iff.1 hexec
  have hinfo : (commandResult .unpack s).info = none := commandResult_info_of_err_ne fun h => nomatch hok.symm.trans h
  refine ⟨applyTag_unpackResult s s.regs, hok, ?_, completionFrame_complete ..⟩
  rw [complete_errInfo, hinfo, Option.getD_none]

/-! ### Powers of two -/

/-- A decoded index has `bpp` bits (rules R140, R160). -/
theorem toNat_unpackIndexAt_lt {c : ConfigRegs} (hk : c.kNat ≤ 256) (m : Memory) (p : Nat) :
    (unpackIndexAt c m p).toNat < 2 ^ bpp c.kNat := Nat.lt_pow_two_of_testBit _ fun j hj => by
  rw [BitVec.testBit_toNat, getLsbD_unpackIndexAt hk, decide_eq_false (Nat.not_lt.2 hj), Bool.false_and]

theorem two_pow_bpp_two_pow (b : Nat) : 2 ^ bpp (2 ^ b) = 2 ^ b :=
  le_antisymm (Nat.pow_le_pow_right two_pos (bpp_le_iff.2 le_rfl)) (le_two_pow_bpp _)

/-- Settles O23: where `k` is a power of two, every number of `bpp k` bits is below `k`. -/
theorem unpackNeverReportsAnIndexOnPowersOfTwo : Obligations.UnpackNeverReportsAnIndexOnPowersOfTwo := by
  intro s b hk hwf
  have hlt : ∀ p, (unpackIndexAt s.operands s.mem p).toNat < s.operands.kNat := fun p => by
    have h := toNat_unpackIndexAt_lt hwf.1.2 s.mem p
    rwa [hk, two_pow_bpp_two_pow, ← hk] at h
  obtain ⟨t, hexec, hok, -⟩ := exec_unpack_ok hwf fun p _ => hlt p
  exact ⟨t, hexec, hok⟩

/-! ### What UNPACK reads -/

/-- The bits of a pixel's index lie in the index stream (rule R144). -/
theorem stream_position_lt {p npix w j : Nat} (hp : p < npix) (hj : j < w) : p * w + j < npix * w :=
  calc p * w + j < p * w + w := Nat.add_lt_add_left hj _
    _ = (p + 1) * w := (Nat.succ_mul p w).symm
    _ ≤ npix * w := Nat.mul_le_mul_right w hp

/-- A decoded index depends on its own stream bits only (rule R160). -/
theorem unpackIndexAt_congr_stream {c : ConfigRegs} (hk : c.kNat ≤ 256) {m m' : Memory}
    (hbits : ∀ q, q < c.npix * bpp c.kNat → streamBit c m' q = streamBit c m q) {p : Nat} (hp : p < c.npix) :
    unpackIndexAt c m' p = unpackIndexAt c m p := by
  refine BitVec.eq_of_getLsbD_eq fun j _ => ?_
  rw [getLsbD_unpackIndexAt hk, getLsbD_unpackIndexAt hk]
  by_cases hj : j < bpp c.kNat
  · rw [hbits (p * bpp c.kNat + j) (stream_position_lt hp hj)]
  · rw [decide_eq_false hj, Bool.false_and, Bool.false_and]

theorem firstBadIndex_congr {k npix : Nat} {index index' : Nat → Byte} (h : ∀ p, p < npix → index' p = index p) :
    firstBadIndex k npix index' = firstBadIndex k npix index := by
  refine List.find?_congr fun p hp => ?_
  rw [h p (List.mem_range.1 hp)]

/-- Two memories with the same index stream give UNPACK one result, but for the draws of an INDEX_OUT_OF_RANGE (rule
R160). -/
theorem unpackResult_congr_stream {s s' : State} (hop : s'.operands = s.operands) (hparams : s'.params = s.params)
    (hbits : ∀ q, q < s.operands.npix * bpp s.operands.kNat →
      streamBit s.operands s'.mem q = streamBit s.operands s.mem q) :
    (unpackResult s').err = (unpackResult s).err ∧ (unpackResult s').info = (unpackResult s).info
      ∧ ((unpackResult s).err = .ok → unpackResult s' = unpackResult s) := by
  cases hcheck : unpackError s.operands s.params.memBytes with
  | some e =>
    have hcheck' : unpackError s'.operands s'.params.memBytes = some e := by rw [hop, hparams, hcheck]
    rw [unpackResult_of_error hcheck, unpackResult_of_error hcheck']
    exact ⟨rfl, rfl, fun _ => rfl⟩
  | none =>
    have hwf := (unpackError_eq_none_iff ..).1 hcheck
    have hwf' : UnpackWellFormed s'.operands s'.params.memBytes := by rwa [hop, hparams]
    have hdecoded : ∀ p, p < s.operands.npix → unpackIndexAt s.operands s'.mem p = unpackIndexAt s.operands s.mem p :=
      fun p hp => unpackIndexAt_congr_stream hwf.1.2 hbits hp
    have hsearch' : firstBadIndex s'.operands.kNat s'.operands.npix (unpackIndexAt s'.operands s'.mem)
        = firstBadIndex s.operands.kNat s.operands.npix (unpackIndexAt s.operands s.mem) := by
      rw [hop]
      exact firstBadIndex_congr hdecoded
    cases hsearch : firstBadIndex s.operands.kNat s.operands.npix (unpackIndexAt s.operands s.mem) with
    | some p =>
      rw [unpackResult_of_badIndex hwf hsearch, unpackResult_of_badIndex hwf' (hsearch'.trans hsearch)]
      exact ⟨rfl, rfl, fun hok => nomatch hok⟩
    | none =>
      have hbytes : (List.range s.operands.npix).map (unpackIndexAt s.operands s'.mem)
          = (List.range s.operands.npix).map (unpackIndexAt s.operands s.mem) :=
        List.map_congr_left fun p hp => hdecoded p (List.mem_range.1 hp)
      rw [unpackResult_of_ok hwf hsearch, unpackResult_of_ok hwf' (hsearch'.trans hsearch), hop, hbytes]
      exact ⟨rfl, rfl, fun _ => rfl⟩

/-- A result's bytes read the same whatever memory they are written to. -/
theorem readByte_complete_inside (r : Result) (s s' : State) {j : Nat} (hj : j < r.bytes.length) :
    (s'.complete r).mem.readByte (r.base + j) = (s.complete r).mem.readByte (r.base + j) :=
  (readByte_writeBytes_inside hj).trans (readByte_writeBytes_inside hj).symm

/-- Settles O25: the two results agree, and on OK they are one, whose bytes fill the index array. -/
theorem unpackReadsOnlyTheIndexBits : Obligations.UnpackReadsOnlyTheIndexBits := by
  intro s s' hop hparams hinfo hbits
  obtain ⟨herr, hinfo', hsame⟩ := unpackResult_congr_stream hop hparams hbits
  refine ⟨_, _, exec_eq .unpack s, exec_eq .unpack s', herr, ?_, fun hok p hp => ?_⟩
  · exact congrArg₂ Option.getD hinfo' hinfo
  · rcases commandResult_cases .unpack s with ⟨e, hne, -, h⟩ | ⟨q, h, -⟩ | ⟨-, -, hbase, hlen, -⟩
    · exact absurd ((congrArg Result.err h).symm.trans hok) hne
    · exact nomatch (congrArg Result.err h).symm.trans hok
    · rw [show commandResult .unpack s' = commandResult .unpack s from hsame hok]
      have hread := readByte_complete_inside (commandResult .unpack s) s s' (j := p) (by rw [hlen]; exact hp)
      rwa [hbase] at hread

end Sys2Proof.Machine
end

section
/-! PROOFS. The converter's per-pixel arithmetic: rounding, saturation, the round trip and the admitted channels
(40_csc.md rules R103, R104 and R107 to R109). -/

namespace Sys2Proof.Machine

/-! ### Rounding -/

/-- `floor(|q| + 1/2)` in whole numbers (rule R103). -/
theorem floor_abs_add_half (n : Int) :
    ⌊|(n : ℚ) / 10000| + 1 / 2⌋ = (((2 * n.natAbs + 10000) / (2 * 10000) : Nat) : Int) := by
  have hquot : |(n : ℚ) / 10000| + 1 / 2 = ((2 * n.natAbs + 10000 : Nat) : ℚ) / ((2 * 10000 : Nat) : ℚ) := by
    rw [abs_div, abs_of_pos (by norm_num : (0 : ℚ) < 10000)]
    push_cast [Nat.cast_natAbs]
    ring
  rw [hquot]
  exact Rat.floor_natCast_div_natCast _ _

/-- Either tie mode rounds to within 1/2 of the quotient (rule R103). -/
theorem roundNearest_near (ties : RoundTies) (n : Int) :
    2 * (10000 * roundNearest ties n 10000 - n).natAbs ≤ 10000 := by
  cases ties with
  | away =>
    rw [roundNearest]
    rcases Int.lt_trichotomy n 0 with h | rfl | h
    · rw [Int.sign_eq_neg_one_of_neg h]
      omega
    · decide
    · rw [Int.sign_eq_one_of_pos h]
      omega
  | even =>
    simp only [roundNearest]
    split_ifs <;> omega

/-- Under EVEN a tie goes to the even neighbour (rule R103). -/
theorem roundNearest_even_tie {n : Int} (h : 2 * (10000 * roundNearest .even n 10000 - n).natAbs = 10000) :
    roundNearest .even n 10000 % 2 = 0 := by
  simp only [roundNearest] at h ⊢
  split_ifs at h ⊢ <;> omega

/-- Settles O6: AWAY is rule R103's formula in whole numbers, and each mode's branches stay within 1/2. -/
theorem roundNearestIsNearest : Obligations.RoundNearestIsNearest := by
  refine fun n => ⟨?_, fun ties => roundNearest_near ties n, roundNearest_even_tie⟩
  rw [floor_abs_add_half]
  rfl

/-! ### Saturation -/

theorem sat_of_mem {v lo hi : Int} (hlo : lo ≤ v) (hhi : v ≤ hi) : sat v lo hi = v := by
  rw [sat, if_neg (Int.not_lt.2 hlo), if_neg (Int.not_lt.2 hhi)]

theorem sat_eq_min {v lo hi : Int} (hlo : lo ≤ v) : sat v lo hi = min v hi := by
  unfold sat
  omega

theorem numY_mem {r g b : Int} (hr : 0 ≤ r ∧ r ≤ 255) (hg : 0 ≤ g ∧ g ≤ 255) (hb : 0 ≤ b ∧ b ≤ 255) :
    0 ≤ numY r g b ∧ numY r g b ≤ 2550000 := by
  unfold numY
  omega

/-- `Cb`'s numerator reaches the tie 127.5 at one input only (rule R104). -/
theorem numCb_mem {r g b : Int} (hr : 0 ≤ r ∧ r ≤ 255) (hg : 0 ≤ g ∧ g ≤ 255) (hb : 0 ≤ b ∧ b ≤ 255) :
    -1275000 ≤ numCb r g b ∧ numCb r g b ≤ 1275000 ∧ (1275000 ≤ numCb r g b ↔ r = 0 ∧ g = 0 ∧ b = 255) := by
  unfold numCb
  omega

/-- `Cr`'s numerator reaches the tie 127.5 at one input only (rule R104). -/
theorem numCr_mem {r g b : Int} (hr : 0 ≤ r ∧ r ≤ 255) (hg : 0 ≤ g ∧ g ≤ 255) (hb : 0 ≤ b ∧ b ≤ 255) :
    -1275000 ≤ numCr r g b ∧ numCr r g b ≤ 1275000 ∧ (1275000 ≤ numCr r g b ↔ r = 255 ∧ g = 0 ∧ b = 0) := by
  unfold numCr
  omega

/-- Rounding a chroma numerator: in range, and 128 exactly at the tie 127.5, which both modes round up (rules R103,
R104). -/
theorem roundNearest_chroma (ties : RoundTies) {n : Int} (hlo : -1275000 ≤ n) (hhi : n ≤ 1275000) :
    -128 ≤ roundNearest ties n 10000 ∧ roundNearest ties n 10000 ≤ 128
      ∧ (roundNearest ties n 10000 = 128 ↔ 1275000 ≤ n) := by
  have hnear := roundNearest_near ties n
  refine ⟨by omega, by omega, fun h => by omega, fun h => ?_⟩
  obtain rfl : n = 1275000 := by omega
  cases ties <;> decide

theorem roundNearest_numY_mem (ties : RoundTies) {n : Int} (hlo : 0 ≤ n) (hhi : n ≤ 2550000) :
    0 ≤ roundNearest ties n 10000 ∧ roundNearest ties n 10000 ≤ 255 := by
  have hnear := roundNearest_near ties n
  omega

/-- Settles O7: the numerators' ranges over the channels' ranges, rounded. -/
theorem forwardNarrowingSaturatesTwoInputs : Obligations.ForwardNarrowingSaturatesTwoInputs := by
  intro ties r g b hr hr' hg hg' hb hb'
  obtain ⟨hy, hy'⟩ := numY_mem ⟨hr, hr'⟩ ⟨hg, hg'⟩ ⟨hb, hb'⟩
  obtain ⟨hcb, hcb', hcbTie⟩ := numCb_mem ⟨hr, hr'⟩ ⟨hg, hg'⟩ ⟨hb, hb'⟩
  obtain ⟨hcr, hcr', hcrTie⟩ := numCr_mem ⟨hr, hr'⟩ ⟨hg, hg'⟩ ⟨hb, hb'⟩
  obtain ⟨hylo, hyhi⟩ := roundNearest_numY_mem ties hy hy'
  obtain ⟨hcblo, hcbhi, hcb128⟩ := roundNearest_chroma ties hcb hcb'
  obtain ⟨hcrlo, hcrhi, hcr128⟩ := roundNearest_chroma ties hcr hcr'
  exact ⟨hy, hy', sat_of_mem hylo hyhi, hcblo, hcbhi, hcrlo, hcrhi, hcb128.trans hcbTie, hcr128.trans hcrTie,
    sat_eq_min hcblo, sat_eq_min hcrlo⟩

/-! ### The inverse transform -/

/-- Truncation differs from the floor only below 0, and saturation takes both to 0 there (rule R107). -/
theorem sat_tdiv_eq_sat_ediv (n : Int) :
    sat (n.tdiv 10000) 0 255 = sat (n / 10000) 0 255
      ∧ (n.tdiv 10000 ≠ n / 10000 → n < 0 ∧ sat (n.tdiv 10000) 0 255 = 0) := by
  rcases lt_or_ge n 0 with hneg | hnonneg
  · have htrunc : n.tdiv 10000 = -(-n / 10000) := by
      rw [← Int.neg_neg n, Int.neg_tdiv, Int.tdiv_eq_ediv_of_nonneg (by omega), Int.neg_neg]
    rw [htrunc, sat, sat]
    omega
  · have htrunc : n.tdiv 10000 = n / 10000 := Int.tdiv_eq_ediv_of_nonneg hnonneg
    exact ⟨by rw [htrunc], fun hne => absurd htrunc hne⟩

/-- Settles O9: `inv`'s channels are truncated quotients, saturated. -/
theorem saturatedTruncationIsSaturatedFloor : Obligations.SaturatedTruncationIsSaturatedFloor :=
  ⟨sat_tdiv_eq_sat_ediv, fun _ _ _ =>
    ⟨(sat_tdiv_eq_sat_ediv _).1, (sat_tdiv_eq_sat_ediv _).1, (sat_tdiv_eq_sat_ediv _).1⟩⟩

/-! ### The round trip -/

/-- A rounded value stays within 1/2 of the quotient when it is cut to a range that holds the quotient. -/
theorem sat_roundNearest_near (ties : RoundTies) {n lo hi : Int} (hlo : 10000 * lo ≤ n + 5000)
    (hhi : n ≤ 10000 * hi + 5000) : 2 * (10000 * sat (roundNearest ties n 10000) lo hi - n).natAbs ≤ 10000 := by
  have hnear := roundNearest_near ties n
  unfold sat
  split_ifs <;> omega

/-- A quotient at most 2 away from a channel's value comes back within 2 of it (rule R106). -/
theorem sat_ediv_near {n v : Int} (hv : 0 ≤ v ∧ v ≤ 255) (hn : (n - 10000 * v).natAbs ≤ 20000) :
    (sat (n / 10000) 0 255 - v).natAbs ≤ 2 := by
  unfold sat
  split_ifs <;> omega

/-- Settles O8: each chroma channel is within 1/2 of its quotient, saturated or not, and rule R106's numerators carry
these errors into at most 2 in each colour channel. -/
theorem roundTripWithinTwoPerChannel : Obligations.RoundTripWithinTwoPerChannel := by
  intro ties r g b hr hr' hg hg' hb hb' c x
  obtain ⟨hinvR, hinvG, hinvB⟩ := saturatedTruncationIsSaturatedFloor.2 c.y c.cb c.cr
  obtain ⟨hy, hy'⟩ := numY_mem ⟨hr, hr'⟩ ⟨hg, hg'⟩ ⟨hb, hb'⟩
  obtain ⟨hcb, hcb', -⟩ := numCb_mem ⟨hr, hr'⟩ ⟨hg, hg'⟩ ⟨hb, hb'⟩
  obtain ⟨hcr, hcr', -⟩ := numCr_mem ⟨hr, hr'⟩ ⟨hg, hg'⟩ ⟨hb, hb'⟩
  have hnearY : 2 * (10000 * c.y - numY r g b).natAbs ≤ 10000 := sat_roundNearest_near ties (by omega) (by omega)
  have hnearCb : 2 * (10000 * c.cb - numCb r g b).natAbs ≤ 10000 := sat_roundNearest_near ties (by omega) (by omega)
  have hnearCr : 2 * (10000 * c.cr - numCr r g b).natAbs ≤ 10000 := sat_roundNearest_near ties (by omega) (by omega)
  clear_value c
  simp only [numY, numCb, numCr] at hnearY hnearCb hnearCr
  rw [hinvR, hinvG, hinvB]
  exact ⟨sat_ediv_near ⟨hr, hr'⟩ (by omega), sat_ediv_near ⟨hg, hg'⟩ (by omega), sat_ediv_near ⟨hb, hb'⟩ (by omega)⟩

/-! ### The admitted channels -/

/-- A channel holds a value that rule R108 admits. -/
theorem channelAdmits_channel (arith : CscArith) {lo hi ref : Int} (hlo : lo ≤ ref) (hhi : ref ≤ hi) (draw : Nat) :
    ChannelAdmits arith lo hi ref (channel arith lo hi ref draw) := by
  cases arith with
  | exact => exact ⟨hlo, hhi, by simp [channel], fun _ => rfl⟩
  | tolerant =>
    have hmem := sat_mem (ref + (Config.freeChoice draw % 3 : Nat) - 1) (hlo.trans hhi)
    refine ⟨hmem.1, hmem.2, ?_, nofun⟩
    rw [channel, nudge, sat]
    split_ifs <;> omega

/-- The draw `v - ref + 1` picks the admitted value `v` (rule R108). -/
theorem exists_nudge_eq {lo hi ref v : Int} (h : ChannelAdmits .tolerant lo hi ref v) :
    ∃ drawn, nudge lo hi ref drawn = v := by
  obtain ⟨hlo, hhi, hnear, -⟩ := h
  refine ⟨(v - ref + 1).toNat, ?_⟩
  have hpick : ref + ((v - ref + 1).toNat % 3 : Nat) - 1 = v := by omega
  rw [nudge, hpick, sat_of_mem hlo hhi]

/-- Settles O10: EXACT draws nothing, and a TOLERANT draw moves the reference by -1, 0 or 1 and cuts it to the range.
-/
theorem tolerantChannelsAreAnyValueWithinOne : Obligations.TolerantChannelsAreAnyValueWithinOne :=
  fun _ _ _ hlo hhi => ⟨fun _ => rfl, channelAdmits_channel .tolerant hlo hhi, fun _ => rfl, fun _ => exists_nudge_eq⟩

end Sys2Proof.Machine
end

section
/-! PROOFS. The two converters over a whole range: every pixel converted, nothing else written, in any order of the
pixels (40_csc.md rules R110, R114, R115, R120 and R125). -/

namespace Sys2Proof.Machine

/-! ### The bytes of one converted pixel -/

theorem channelAdmits_u8 (arith : CscArith) {ref : Int} (h : 0 ≤ ref ∧ ref ≤ 255) (draw : Nat) :
    ChannelAdmits arith 0 255 ref (BitVec.ofInt 8 (channel arith 0 255 ref draw)).toNat := by
  have hadmits := channelAdmits_channel arith h.1 h.2 draw
  rwa [toNat_ofInt_u8 hadmits.1 hadmits.2.1]

theorem channelAdmits_s8 (arith : CscArith) {ref : Int} (h : -128 ≤ ref ∧ ref ≤ 127) (draw : Nat) :
    ChannelAdmits arith (-128) 127 ref (BitVec.ofInt 8 (channel arith (-128) 127 ref draw)).toInt := by
  have hadmits := channelAdmits_channel arith h.1 h.2 draw
  rwa [toInt_ofInt_s8 hadmits.1 hadmits.2.1]

/-- The function makes pixels of three bytes. -/
abbrev ThreeBytes (pixel : Params → Nat → Byte → Byte → Byte → List Byte) : Prop :=
  ∀ p d x y z, (pixel p d x y z).length = 3

/-- The three bytes of `m` at `da` are the pixel that `pixel` makes of the three bytes of `m0` at `sa`. -/
def HoldsPixel (pixel : Params → Nat → Byte → Byte → Byte → List Byte) (p : Params) (draw : Nat) (m0 m : Memory)
    (sa da : Nat) : Prop :=
  ∀ j, j < 3 → m.readByte (da + j) =
    ((pixel p draw (m0.readByte sa) (m0.readByte (sa + 1)) (m0.readByte (sa + 2)))[j]?).getD 0

theorem sat_u8_mem (v : Int) : 0 ≤ sat v 0 255 ∧ sat v 0 255 ≤ 255 := sat_mem v (by norm_num)

theorem sat_s8_mem (v : Int) : -128 ≤ sat v (-128) 127 ∧ sat v (-128) 127 ≤ 127 := sat_mem v (by norm_num)

section
variable {p : Params} {draw : Nat} {m0 m : Memory} {sa da : Nat}

/-- What `fwdPixel` makes is an admitted CHROMA pixel (rules R108, R120). -/
theorem fwdConverted_of_holdsPixel (h : HoldsPixel fwdPixel p draw m0 m sa da) : FwdConverted p m0 m sa da := by
  rw [FwdConverted, ← Nat.add_zero da, h 0 (by norm_num), Nat.add_zero, h 1 (by norm_num), h 2 (by norm_num)]
  exact ⟨channelAdmits_u8 _ (sat_u8_mem _) _, channelAdmits_s8 _ (sat_s8_mem _) _, channelAdmits_s8 _ (sat_s8_mem _) _⟩

/-- What `invPixel` makes is an admitted COLOR pixel (rules R108, R125). -/
theorem invConverted_of_holdsPixel (h : HoldsPixel invPixel p draw m0 m sa da) : InvConverted p m0 m sa da := by
  rw [InvConverted, ← Nat.add_zero da, h 0 (by norm_num), Nat.add_zero, h 1 (by norm_num), h 2 (by norm_num)]
  exact ⟨channelAdmits_u8 _ (sat_u8_mem _) _, channelAdmits_u8 _ (sat_u8_mem _) _, channelAdmits_u8 _ (sat_u8_mem _) _⟩

end

/-! ### A converted range -/

/-- In `m1` the `n` pixels from `first` on at `db` are those that `pixel` makes of the pixels of `m0` at `sb`, and
every other byte is as in `m0` (rule R110). -/
structure ConvertedRange (pixel : Params → Nat → Byte → Byte → Byte → List Byte) (p : Params)
    (draws sb db first n : Nat) (m0 m1 : Memory) : Prop where
  pixels : ∀ i, i < n → HoldsPixel pixel p (draws + 3 * i) m0 m1 (sb + 3 * (first + i)) (db + 3 * (first + i))
  others : OnlyWithin m0 m1 (db + 3 * first) (3 * n)

section
variable {pixel : Params → Nat → Byte → Byte → Byte → List Byte} (hl : ThreeBytes pixel)
include hl

theorem convertedRange_cscBytes (p : Params) (draws sb db first n : Nat) (m0 : Memory) :
    ConvertedRange pixel p draws sb db first n m0
      (m0.writeBytes (db + 3 * first) (cscBytes (pixel p) m0 (sb + 3 * first) draws n)) where
  pixels i hi j hj := by
    have h := readByte_converted hl p m0 m0 (sb := sb) (db := db) (draws := draws) (Nat.le_add_right first i)
      (Nat.add_lt_add_left hi first) hj
    rwa [Nat.add_sub_cancel_left] at h
  others := by
    have h := onlyWithin_writeBytes m0 (db + 3 * first) (cscBytes (pixel p) m0 (sb + 3 * first) draws n)
    rwa [cscBytes_length (hl p)] at h

variable (tag : Tag) {src dst : SurfNum} {range : Bool} {s : State}

/-- A CSC command on well-formed registers converts its range, tags its destination and completes with OK (rule R115).
-/
theorem complete_cscResult_of_wellFormed (hwf : CscWellFormed src dst range s.operands s.params.memBytes) :
    ConvertedRange pixel s.params s.draws (s.operands.surf src).base.toNat (s.operands.surf dst).base.toNat
        (cscFirst range s.operands) (cscCount src range s.operands) s.mem
        (s.complete (cscResult pixel tag src dst range s)).mem
      ∧ (s.complete (cscResult pixel tag src dst range s)).regs = s.regs.setTag dst tag
      ∧ (s.complete (cscResult pixel tag src dst range s)).err = .ok
      ∧ (s.complete (cscResult pixel tag src dst range s)).errInfo = s.errInfo
      ∧ CompletionFrame s (s.complete (cscResult pixel tag src dst range s)) := by
  rw [cscResult_of_wellFormed hwf]
  exact ⟨convertedRange_cscBytes hl .., rfl, rfl, rfl, completionFrame_complete ..⟩

end

/-- Settles O11: a converted range of `fwdPixel` holds admitted CHROMA pixels. -/
theorem cscFwdConvertsItsRange : Obligations.CscFwdConvertsItsRange := by
  intro src dst range s hwf
  obtain ⟨hconv, hregs, herr, hinfo, hframe⟩ :=
    complete_cscResult_of_wellFormed (fun _ _ _ _ _ => rfl : ThreeBytes fwdPixel) .chroma hwf
  refine ⟨_, exec_eq (.cscFwd src dst range) s, ⟨fun p hp hp' => ?_, hconv.others⟩, hregs, herr, hinfo, hframe⟩
  obtain ⟨i, rfl⟩ := Nat.exists_eq_add_of_le hp
  exact fwdConverted_of_holdsPixel (hconv.pixels i (Nat.lt_of_add_lt_add_left hp'))

/-- Settles O12: a converted range of `invPixel` holds admitted COLOR pixels. -/
theorem cscInvConvertsItsRange : Obligations.CscInvConvertsItsRange := by
  intro src dst range s hwf
  obtain ⟨hconv, hregs, herr, hinfo, hframe⟩ :=
    complete_cscResult_of_wellFormed (fun _ _ _ _ _ => rfl : ThreeBytes invPixel) .color hwf
  refine ⟨_, exec_eq (.cscInv src dst range) s, ⟨fun p hp hp' => ?_, hconv.others⟩, hregs, herr, hinfo, hframe⟩
  obtain ⟨i, rfl⟩ := Nat.exists_eq_add_of_le hp
  exact invConverted_of_holdsPixel (hconv.pixels i (Nat.lt_of_add_lt_add_left hp'))

/-! ### Any order of the pixels -/

/-- The address belongs to pixel `first + i` of the surface at `base` (rule R30). -/
def InPixel (base first i a : Nat) : Prop := base + 3 * (first + i) ≤ a ∧ a < base + 3 * (first + i) + 3

/-- No pixel of the range is written over the source of another one: the surfaces are the same or do not meet. -/
def SourcesKept (sb db first n : Nat) : Prop :=
  ∀ i i' a, i < n → i' < n → InPixel sb first i a → InPixel db first i' a → i' = i

/-- Work in progress: the bytes of the pixels still to convert stand as in `m0`, all other bytes as in `m1`. -/
structure Converting (db first : Nat) (todo : List Nat) (m0 m1 m : Memory) : Prop where
  untouched : ∀ i ∈ todo, ∀ a, InPixel db first i a → m.readByte a = m0.readByte a
  settled   : ∀ a, (∀ i ∈ todo, ¬ InPixel db first i a) → m.readByte a = m1.readByte a

section
variable {pixel : Params → Nat → Byte → Byte → Byte → List Byte} {p : Params} {draws sb db first n : Nat}
  {m0 m1 m : Memory} {i : Nat} {todo : List Nat}

/-- A byte of a pixel's source that is not its own pixel's destination is never written. -/
theorem Converting.source (hconv : ConvertedRange pixel p draws sb db first n m0 m1) (hkept : SourcesKept sb db first n)
    (hwork : Converting db first (i :: todo) m0 m1 m) (hi : i < n) {a : Nat} (ha : InPixel sb first i a) :
    m.readByte a = m0.readByte a := by
  by_cases hown : InPixel db first i a
  · exact hwork.untouched i List.mem_cons_self a hown
  by_cases htodo : ∃ i' ∈ todo, InPixel db first i' a
  · obtain ⟨i', hi', hin⟩ := htodo
    exact hwork.untouched i' (List.mem_cons_of_mem i hi') a hin
  · have hout : ∀ i' ∈ i :: todo, ¬ InPixel db first i' a := by
      simpa [hown] using htodo
    rw [hwork.settled a hout]
    refine hconv.others a fun ⟨hle, hlt⟩ => hown ?_
    have hin : InPixel db first ((a - db) / 3 - first) a := by
      unfold InPixel
      omega
    rwa [hkept i _ a hi (by omega) ha hin] at hin

/-- Converting the next pixel takes the work one step on (rule R114). -/
theorem Converting.next (hl : ThreeBytes pixel) (hconv : ConvertedRange pixel p draws sb db first n m0 m1)
    (hkept : SourcesKept sb db first n) (hwork : Converting db first (i :: todo) m0 m1 m) (hi : i < n)
    (hnew : i ∉ todo) : Converting db first todo m0 m1 (convertOne pixel p draws sb db first m i) := by
  have hsource : ∀ j, j < 3 → m.readByte (sb + 3 * (first + i) + j) = m0.readByte (sb + 3 * (first + i) + j) :=
    fun j hj => hwork.source hconv hkept hi ⟨Nat.le_add_right .., Nat.add_lt_add_left hj _⟩
  have hwritten : convertOne pixel p draws sb db first m i = m.writeBytes (db + 3 * (first + i))
      (pixel p (draws + 3 * i) (m0.readByte (sb + 3 * (first + i))) (m0.readByte (sb + 3 * (first + i) + 1))
        (m0.readByte (sb + 3 * (first + i) + 2))) := by
    have hfirst : m.readByte (sb + 3 * (first + i)) = m0.readByte (sb + 3 * (first + i)) := hsource 0 (by norm_num)
    rw [convertOne, hfirst, hsource 1 (by norm_num), hsource 2 (by norm_num)]
  have houtside : ∀ a, ¬ InPixel db first i a →
      (convertOne pixel p draws sb db first m i).readByte a = m.readByte a := by
    intro a ha
    rw [hwritten]
    refine readByte_writeBytes_outside ?_
    rw [hl]
    exact ha
  constructor
  case untouched =>
    intro i' hi' a ha
    have hne : ¬ InPixel db first i a := by
      have : i' ≠ i := ne_of_mem_of_not_mem hi' hnew
      unfold InPixel at ha ⊢
      omega
    rw [houtside a hne, hwork.untouched i' (List.mem_cons_of_mem i hi') a ha]
  case settled =>
    intro a ha
    by_cases hown : InPixel db first i a
    · obtain ⟨j, rfl⟩ := Nat.exists_eq_add_of_le hown.1
      have hj : j < 3 := Nat.lt_of_add_lt_add_left hown.2
      rw [hconv.pixels i hi j hj, hwritten, readByte_writeBytes_inside (by rw [hl]; exact hj),
        List.getElem?_eq_getElem (by rw [hl]; exact hj), Option.getD_some]
    · rw [houtside a hown, hwork.settled a (List.forall_mem_cons.2 ⟨hown, ha⟩)]

/-- The work done pixel by pixel, in the order of the list, ends in `m1` (rule R114). -/
theorem foldl_convertOne (hl : ThreeBytes pixel) (hconv : ConvertedRange pixel p draws sb db first n m0 m1)
    (hkept : SourcesKept sb db first n) (hin : ∀ i ∈ todo, i < n) (hnodup : todo.Nodup)
    (hwork : Converting db first todo m0 m1 m) (a : Nat) :
    (todo.foldl (convertOne pixel p draws sb db first) m).readByte a = m1.readByte a := by
  induction todo generalizing m with
  | nil => exact hwork.settled a nofun
  | cons i todo ih =>
    obtain ⟨hi, hin'⟩ := List.forall_mem_cons.1 hin
    obtain ⟨hnew, hnodup'⟩ := List.nodup_cons.1 hnodup
    exact ih hin' hnodup' (hwork.next hl hconv hkept hi hnew)

/-- Before any pixel of the range is converted, all of them are to do. -/
theorem converting_start (hconv : ConvertedRange pixel p draws sb db first n m0 m1) (htodo : ∀ i, i < n → i ∈ todo) :
    Converting db first todo m0 m1 m0 where
  untouched _ _ _ _ := rfl
  settled a ha := by
    refine (hconv.others a fun ⟨hle, hlt⟩ => ha ((a - db) / 3 - first) (htodo _ (by omega)) ?_).symm
    unfold InPixel
    omega

end

/-- Well-formed registers give the same surface twice or two that do not meet (rule R115). -/
theorem sourcesKept_of_wellFormed {src dst : SurfNum} {range : Bool} {c : ConfigRegs} {memBytes : Nat}
    (h : CscWellFormed src dst range c memBytes) :
    SourcesKept (c.surf src).base.toNat (c.surf dst).base.toNat (cscFirst range c) (cscCount src range c) := by
  obtain ⟨hsrc, hdst⟩ := cscRange_le h
  obtain ⟨-, -, hsurfaces, -⟩ := h
  intro i i' a hi hi' ha ha'
  unfold InPixel at ha ha'
  rcases hsurfaces with rfl | hbase | hdisjoint
  · omega
  · rw [hbase] at ha
    omega
  · unfold Overlap at hdisjoint
    omega

/-- The memory a CSC command completes with is reached pixel by pixel in any order (rule R114). -/
theorem conversion_in_any_order {pixel : Params → Nat → Byte → Byte → Byte → List Byte} (hl : ThreeBytes pixel)
    (tag : Tag) {src dst : SurfNum} {range : Bool} {s : State}
    (hwf : CscWellFormed src dst range s.operands s.params.memBytes) {order : List Nat}
    (hperm : order.Perm (List.range (cscCount src range s.operands))) (a : Nat) :
    (order.foldl (convertOne pixel s.params s.draws (s.operands.surf src).base.toNat (s.operands.surf dst).base.toNat
        (cscFirst range s.operands)) s.mem).readByte a
      = (s.complete (cscResult pixel tag src dst range s)).mem.readByte a := by
  obtain ⟨hconv, -⟩ := complete_cscResult_of_wellFormed hl tag hwf
  exact foldl_convertOne hl hconv (sourcesKept_of_wellFormed hwf) (fun i hi => List.mem_range.1 (hperm.mem_iff.1 hi))
    (hperm.nodup_iff.2 List.nodup_range) (converting_start hconv fun i hi => hperm.mem_iff.2 (List.mem_range.2 hi)) a

/-- Settles O13: no pixel is written over the source of another, so every order of the work reads the same pixels. -/
theorem conversionOrderDoesNotMatter : Obligations.ConversionOrderDoesNotMatter := by
  intro src dst range s hwf sb db first n
  have hfwd : ThreeBytes fwdPixel := fun _ _ _ _ _ => rfl
  have hinv : ThreeBytes invPixel := fun _ _ _ _ _ => rfl
  exact ⟨⟨_, exec_eq (.cscFwd src dst range) s, (complete_cscResult_of_wellFormed hfwd .chroma hwf).1.others,
      fun order hperm => conversion_in_any_order hfwd .chroma hwf hperm⟩,
    _, exec_eq (.cscInv src dst range) s, (complete_cscResult_of_wellFormed hinv .color hwf).1.others,
      fun order hperm => conversion_in_any_order hinv .color hwf hperm⟩

end Sys2Proof.Machine
end
